-- ==== Sys2Proof/Word.lean ====
section
/-! DEFINITION. The three value widths of the engine (spec 00_scope.md R4, R6): bytes of 8 bits, words of 32 bits and the
64-bit length. Addition, and, or, exclusive or, complement and the logical shifts of R6 are the ones of `BitVec`. -/

namespace Sys2Proof

/-- `Byte` of R6: an 8-bit value. -/
abbrev Byte := BitVec 8

/-- `Word` of R6: a 32-bit unsigned value; `+` on it is addition modulo 2^32. -/
abbrev Word := BitVec 32

/-- `Len` of R6: the 64-bit count of message bits. -/
abbrev Len := BitVec 64

end Sys2Proof
end

