-- ==== Sys2Proof/Config.lean ====
section
/-! DEFINITION. What is fixed for the machine (spec 00_scope.md R4) and the one value the spec leaves open, the time a
command takes (70_reset_and_hazards.md R105, 92_eei_decisions.md D17). -/

namespace Sys2Proof

/-- The largest bit length the 64-bit length field can state (R4, R52): 2^64 - 1. -/
def Config.maxBitLen : Nat := 2 ^ 64 - 1

/-- Bits of one full message block (R4, R12): 64 bytes. -/
def Config.blockBits : Nat := 512

/-- The open parameter `T_CMD(command, state)` of R105, less one unit, so that the time itself is positive and finite.
It has no body: nothing can be proved of its value, and no step of the machine reads it (assumption log 9). Its arguments
are the command record (HDR, W, DATA) and the engine's registers (H, LEN, STATUS), written as plain data. -/
opaque Config.freeTime (hdr : BitVec 16) (w : Word) (data : List Byte) (h : List Word) (len : Len) (status : BitVec 3) : Nat

end Sys2Proof
end

