-- ==== Sys2Proof/Syntax.lean ====
section
/-! DEFINITION. The seven commands (spec 30_encoding.md R32, R33, R37), one constructor per row of the opcode table, each
with exactly the operands its format reads. Register numbers, addresses and addressing modes do not exist (R39). -/

namespace Sys2Proof

/-- The 64 operand bytes `DATA[0..63]` of a command, which are also one message block (R18, R30). -/
abbrev Block := Vector Byte 64

/-- A decoded command. -/
inductive Instr where
  /-- `STAT` (R73), format Z: no operands. -/
  | stat
  /-- `INIT` (R71), format Z: no operands. -/
  | init
  /-- `BLOCK <64 bytes>` (R65), format B: the block `DATA[0..63]`. -/
  | block (data : Block)
  /-- `LAST <n bytes>` (R50), format L: the bytes `DATA[0..N-1]`; the operand `N` is their number (R37). -/
  | last (tail : List Byte)
  /-- `READ` (R72), format Z: no operands. -/
  | read
  /-- `PACK b0, b1, b2, b3` (R40), format P: the bytes `DATA[0..3]`. -/
  | pack (b0 b1 b2 b3 : Byte)
  /-- `UNPACK w` (R41), format U: the Word operand `W`. -/
  | unpack (w : Word)
deriving DecidableEq, Repr

/-- The mnemonic of R33. -/
def Instr.mnemonic : Instr → String
  | .stat => "STAT"
  | .init => "INIT"
  | .block _ => "BLOCK"
  | .last _ => "LAST"
  | .read => "READ"
  | .pack _ _ _ _ => "PACK"
  | .unpack _ => "UNPACK"

end Sys2Proof
end

