-- ==== Sys2Proof/WellFormed.lean ====
section
/-! DEFINITION. Which terms of `Instr` are commands of the engine. Every operand but one is bounded by its type; the
tail of `LAST` has at most 63 bytes, because `N` has six bits (spec 30_encoding.md R31, R37; 92_eei_decisions.md D25). -/

namespace Sys2Proof

/-- The command can be written in a header of R31. -/
def Instr.wellFormed : Instr → Bool
  | .stat => true
  | .init => true
  | .block _ => true
  | .last tail => decide (tail.length ≤ 63)
  | .read => true
  | .pack _ _ _ _ => true
  | .unpack _ => true

end Sys2Proof
end

