-- ==== Sys2Proof/Decode.lean ====
section
/-! DEFINITION. The command record of the port (spec 30_encoding.md R30, R31), the decoder of R35, total on every
record and rejecting by name, and after it the encoder of R33 and R37. The opcode map of R33 stands here as a table too. -/

namespace Sys2Proof

/-- One command as the host presents it (R30): a 16-bit header, a Word operand and 64 data bytes, all always present. -/
structure Command where
  hdr  : BitVec 16
  w    : Word
  data : Block
deriving DecidableEq, Repr

/-- The operation code `OP = HDR[3:0]` (R31). -/
def Command.op (c : Command) : BitVec 4 := c.hdr.extractLsb' 0 4

/-- The byte count `N = HDR[9:4]` of `LAST`, unsigned and unscaled (R31). -/
def Command.n (c : Command) : BitVec 6 := c.hdr.extractLsb' 4 6

/-- The reserved field `RSV = HDR[15:10]` (R31). -/
def Command.rsv (c : Command) : BitVec 6 := c.hdr.extractLsb' 10 6

/-- The bytes `DATA[0..k-1]` (R7 `s[i..j]`, R32). -/
def Command.dataBytes (c : Command) (k : Nat) : List Byte := c.data.toList.take k

/-- Why a header spells no command (R35, R36); every one of them is the cause ILLEGAL. -/
inductive Illegal where
  /-- `RSV` is not zero. -/
  | reservedBits
  /-- `OP` is one of the reserved codes 7 to 15. -/
  | reservedOpcode
  /-- `N` is not zero in a command other than `LAST`. -/
  | strayCount
deriving DecidableEq, Repr

/-- The row of R33 that an operation code selects, with the operands its format reads (R32); none for codes 7 to 15. -/
def decodeRow (c : Command) : Option Instr :=
  match c.op.toNat with
  | 0 => some .stat
  | 1 => some .init
  | 2 => some (.block c.data)
  | 3 => some (.last (c.dataBytes c.n.toNat))
  | 4 => some .read
  | 5 => some (.pack c.data[0] c.data[1] c.data[2] c.data[3])
  | 6 => some (.unpack c.w)
  | _ => none

/-- `decode` of R35, its checks in the rule's order. -/
def decode (c : Command) : Except Illegal Instr :=
  if c.rsv ≠ 0 then .error .reservedBits
  else
    match decodeRow c with
    | none => .error .reservedOpcode
    | some i => if c.op ≠ 3 ∧ c.n ≠ 0 then .error .strayCount else .ok i

/-- The first `k` bytes of a list as an array, with bytes 0x00 after the list's end: operand and result bytes that no rule
assigns are zero (R8, R34, R37). -/
def padTo (k : Nat) (l : List Byte) : Vector Byte k :=
  ⟨((l ++ List.replicate k 0).take k).toArray, by simp⟩

/-- The data operand whose first bytes are the list and whose other bytes are zero (R37). -/
def Block.ofList (l : List Byte) : Block := padTo 64 l

/-- The header of a command (R33): `LAST` with count `n` is `(n << 4) | 3`. -/
def encodeHeader : Instr → BitVec 16
  | .stat => 0x0000
  | .init => 0x0001
  | .block _ => 0x0002
  | .last tail => (BitVec.ofNat 16 tail.length <<< 4) ||| 3
  | .read => 0x0004
  | .pack _ _ _ _ => 0x0005
  | .unpack _ => 0x0006

/-- The Word operand of a command, zero where the command does not read it (R37). -/
def encodeWord : Instr → Word
  | .stat => 0
  | .init => 0
  | .block _ => 0
  | .last _ => 0
  | .read => 0
  | .pack _ _ _ _ => 0
  | .unpack w => w

/-- The data operand of a command, zero where the command does not read it (R37). -/
def encodeData : Instr → Block
  | .stat => Block.ofList []
  | .init => Block.ofList []
  | .block data => data
  | .last tail => Block.ofList tail
  | .read => Block.ofList []
  | .pack b0 b1 b2 b3 => Block.ofList [b0, b1, b2, b3]
  | .unpack _ => Block.ofList []

/-- The command record of a well-formed command (R33, R37). -/
def encode (i : Instr) : Command := ⟨encodeHeader i, encodeWord i, encodeData i⟩

/-- The command formats of R32. -/
inductive Format where
  /-- reads nothing beyond the header -/
  | z
  /-- reads `DATA[0..63]` -/
  | b
  /-- reads `N` and `DATA[0..N-1]` -/
  | l
  /-- reads `DATA[0..3]` -/
  | p
  /-- reads `W` -/
  | u
deriving DecidableEq, Repr

/-- The format of a command (R32). -/
def Instr.format : Instr → Format
  | .stat => .z
  | .init => .z
  | .block _ => .b
  | .last _ => .l
  | .read => .z
  | .pack _ _ _ _ => .p
  | .unpack _ => .u

/-- One row of the opcode map of R33: a header `h` selects it when `h & mask = value`. -/
structure OpRow where
  mnemonic : String
  format   : Format
  value    : BitVec 16
  mask     : BitVec 16
deriving DecidableEq, Repr

/-- The complete opcode map (R33). -/
def opcodeMap : List OpRow :=
  [⟨"STAT", .z, 0x0000, 0xFFFF⟩, ⟨"INIT", .z, 0x0001, 0xFFFF⟩, ⟨"BLOCK", .b, 0x0002, 0xFFFF⟩,
   ⟨"LAST", .l, 0x0003, 0xFC0F⟩, ⟨"READ", .z, 0x0004, 0xFFFF⟩, ⟨"PACK", .p, 0x0005, 0xFFFF⟩,
   ⟨"UNPACK", .u, 0x0006, 0xFFFF⟩]

/-- The header selects the row (R33). -/
def OpRow.selects (r : OpRow) (h : BitVec 16) : Bool := h &&& r.mask == r.value

/-- A command record written as one number, the header in bits 15:0, then `W` in bits 47:16, then `DATA[i]` in bits
55+8i:48+8i. The spec numbers the header's bits (R31) and the data bytes among themselves (R22) but not the record as a
whole; this order of the parts is R30's (DESIGN CHOICE, assumption log 3). -/
def commandOfBits (v : Nat) : Command :=
  ⟨BitVec.ofNat 16 v, BitVec.ofNat 32 (v >>> 16), Vector.ofFn fun (i : Fin 64) => BitVec.ofNat 8 (v >>> (48 + 8 * i.val))⟩

/-- What the decoder reads from an instruction whose first `nbits` bits are those of `w` and whose other bits are zero. -/
def decodeTableWord (nbits w : Nat) : Option Instr :=
  match decode (commandOfBits (w % 2 ^ nbits)) with
  | .ok i => some i
  | .error _ => none

end Sys2Proof
end

