-- ==== Sys2Proof/Machine/State.lean ====
section
/-! DEFINITION. The state of one engine (spec 10_state.md R10) and the two sides of its port: what the host will present
next and what the engine has answered (00_scope.md R5, 30_encoding.md R30, R34). All of it is plain data. -/

namespace Sys2Proof.Machine

/-- The digest state `H[0..4]` (R11). -/
structure DigestState where
  h0 : Word
  h1 : Word
  h2 : Word
  h3 : Word
  h4 : Word
deriving DecidableEq, Repr

/-- The initial value `IV` (43_digest.md R70). -/
def DigestState.iv : DigestState := ⟨0x67452301, 0xEFCDAB89, 0x98BADCFE, 0x10325476, 0xC3D2E1F0⟩

/-- The phase register `PHASE` (R13); its codes are in Machine/Flags.lean. -/
inductive Phase where
  /-- no block absorbed yet -/
  | init
  /-- at least one block absorbed, message not finished -/
  | proc
  /-- the digest is ready -/
  | final
  /-- a block was refused for length overflow -/
  | error
deriving DecidableEq, Repr

/-- The causes of a rejected command (60_exceptions.md R80); NONE, code 0, is the absence of a cause. -/
inductive Cause where
  | inputTooLarge
  | protocol
  | illegal
deriving DecidableEq, Repr

/-- One response (30_encoding.md R34): an 8-bit header, a Word result and twenty result bytes. -/
structure Response where
  rhdr  : BitVec 8
  rw    : Word
  rdata : Vector Byte 20
deriving DecidableEq, Repr

/-- What the host can do to the engine (R5, 70_reset_and_hazards.md R101). -/
inductive HostEvent where
  /-- present a command and take its response -/
  | command (c : Command)
  /-- assert reset between two commands -/
  | reset
  /-- assert reset after the command was accepted and before its response was delivered: the command is abandoned -/
  | resetDuring (c : Command)
deriving DecidableEq, Repr

/-- Reasons for a step to stop with a fault. The spec names none: "There is no `stuck` behaviour and no `any value`
anywhere in the spec" (93_implementation_defined.md part 1), and the overflow that the source calls an error is a rejected
command with a described next state (R81). So the type has no constructor, nobody raises a fault, and that is safe. -/
inductive Fault where
deriving DecidableEq, Repr

/-- Reasons for an instruction to have no meaning. -/
inductive Refusal where
  /-- The instruction is not modelled. Raised by no arm of `exec`: every row of the opcode table has its meaning; the
  constructor is part of the host's interface. Safe. -/
  | notModelled (mnemonic : String)
deriving DecidableEq, Repr

/-- The machine: the four pieces of architectural state of R10, then the two sides of the command port. -/
structure State where
  /-- `H[0..4]` -/
  h         : DigestState
  /-- `LEN`, the number of message bits absorbed (R12) -/
  len       : Len
  /-- `PHASE` (R13) -/
  phase     : Phase
  /-- `ERR`, the sticky `InputTooLarge` flag (R14) -/
  err       : Bool
  /-- The model's own (assumption log 1): what the host will do next, first event first. -/
  inputs    : List HostEvent
  /-- The model's own (assumption log 1): the responses delivered to the host, oldest first (R26 (b)). -/
  responses : List Response
deriving DecidableEq, Repr

/-- The machine right after reset (R100): `H = IV`, `LEN = 0`, `PHASE = INIT`, `ERR = 0`; the host has presented nothing and
has been answered nothing, for "the engine executes nothing until the host issues a command". -/
def State.reset : State :=
  { h := DigestState.iv, len := 0, phase := .init, err := false, inputs := [], responses := [] }

end Sys2Proof.Machine
end

