-- ==== Sys2Proof/Machine/Flags.lean ====
section
/-! DEFINITION. The status register and the response header: the codes of PHASE (spec 10_state.md R13) and CAUSE
(60_exceptions.md R80), STATUS (10_state.md R15) and RHDR (30_encoding.md R34). `ERR` is the engine's only flag (R14). -/

namespace Sys2Proof.Machine

/-- The 2-bit code of `PHASE` (R13). -/
def phaseCode : Phase → BitVec 2
  | .init => 0
  | .proc => 1
  | .final => 2
  | .error => 3

/-- The 2-bit code of `CAUSE` (R80); no cause is 0, NONE. -/
def causeCode : Option Cause → BitVec 2
  | none => 0
  | some .inputTooLarge => 1
  | some .protocol => 2
  | some .illegal => 3

/-- `ACK` (R34): 1 exactly when there is no cause. -/
def ackBit (cause : Option Cause) : BitVec 1 := BitVec.ofBool cause.isNone

/-- `STATUS` (R15): `PHASE` in bits 1:0 and `ERR` in bit 2, a read-only view of the state. -/
def status (s : State) : BitVec 3 :=
  ((BitVec.ofBool s.err).setWidth 3 <<< 2) ||| (phaseCode s.phase).setWidth 3

/-- `RHDR = (ERR << 5) | (PHASE << 3) | (CAUSE << 1) | ACK` (R34), of the state after the command. -/
def rhdr (cause : Option Cause) (s : State) : BitVec 8 :=
  ((BitVec.ofBool s.err).setWidth 8 <<< 5) ||| ((phaseCode s.phase).setWidth 8 <<< 3) |||
    ((causeCode cause).setWidth 8 <<< 1) ||| (ackBit cause).setWidth 8

end Sys2Proof.Machine
end

