-- ==== Sys2Proof/Machine/Operands.lean ====
section
/-! DEFINITION. The byte and word operand forms of the engine: the codec PACK and UNPACK (spec 40_codec.md R40, R41), the
helpers WORDS and SER built on it (R44), LE64 (41_padding.md R46), and the flat views of the data buses (20_memory.md R22). -/

namespace Sys2Proof.Machine

/-- `PACK` (R40): each byte widened to 32 bits with zeros, `b0` least significant. -/
def pack (b0 b1 b2 b3 : Byte) : Word :=
  b0.setWidth 32 ||| (b1.setWidth 32 <<< 8) ||| (b2.setWidth 32 <<< 16) ||| (b3.setWidth 32 <<< 24)

/-- `UNPACK` (R41): `(w & 0xFF, (w>>8) & 0xFF, (w>>16) & 0xFF, (w>>24) & 0xFF)`. -/
def unpack (w : Word) : Byte × Byte × Byte × Byte :=
  (w.extractLsb' 0 8, w.extractLsb' 8 8, w.extractLsb' 16 8, w.extractLsb' 24 8)

/-- The four bytes of `UNPACK` in index order (R7). -/
def unpackBytes (w : Word) : List Byte := [(unpack w).1, (unpack w).2.1, (unpack w).2.2.1, (unpack w).2.2.2]

/-- `WORDS` (R44): the sixteen message words of a block, word `i` from bytes `4i` to `4i+3`. -/
def words (b : Block) : Vector Word 16 :=
  Vector.ofFn fun (i : Fin 16) => pack b[4 * i.val] b[4 * i.val + 1] b[4 * i.val + 2] b[4 * i.val + 3]

/-- `SER` (R44): the five words of the state as twenty bytes, `h0` first, each least significant byte first. -/
def ser (h : DigestState) : List Byte :=
  unpackBytes h.h0 ++ unpackBytes h.h1 ++ unpackBytes h.h2 ++ unpackBytes h.h3 ++ unpackBytes h.h4

/-- `LE64` (R46): the low word unpacked, then the high word. -/
def le64 (v : Len) : List Byte := unpackBytes (v.extractLsb' 0 32) ++ unpackBytes (v.extractLsb' 32 32)

/-- The number whose base-256 digits are the bytes, byte 0 least significant: how bytes lie on a flat bus (R22). -/
def busValue : List Byte → Nat
  | [] => 0
  | b :: bs => b.toNat + 256 * busValue bs

/-- `cmd_data` of R22: the 64 operand bytes as one 512-bit value. -/
def cmdData (c : Command) : BitVec 512 := BitVec.ofNat 512 (busValue c.data.toList)

/-- The operand bytes carried by a value of the 512-bit bus (R22): byte `i` is bits 8i+7:8i. -/
def dataOfBus (v : BitVec 512) : Block := Vector.ofFn fun (i : Fin 64) => v.extractLsb' (8 * i.val) 8

/-- `rsp_data` of R22: the 20 result bytes as one 160-bit value. -/
def rspData (r : Response) : BitVec 160 := BitVec.ofNat 160 (busValue r.rdata.toList)

end Sys2Proof.Machine
end

