-- ==== Sys2Proof/Machine/Compress.lean ====
section
/-! DEFINITION. The compression function CF of spec 42_compression.md (R53 to R63): the mixing functions, the constant
tables, one step of a line, the two lines, and their combination. The tables are constants of the definition, not state
(10_state.md R17); the working registers live only inside one compression (R16). The numbers of R54, R56, R57, R58 and R62
are those the spec supplies from general knowledge (assumption log 7). -/

namespace Sys2Proof.Machine

/-- `rol(x, n)` (00_scope.md R6) for `0 < n < 32`: `(x << n) | (x >> (32 - n))`; every amount used is 5 to 15. -/
def rol (x : Word) (n : Nat) : Word := (x <<< n) ||| (x >>> (32 - n))

/-- The two lines of one compression (R53). -/
inductive Side where
  | left
  | right
deriving DecidableEq, Repr

/-- The five working registers of one line (10_state.md R16). -/
structure Regs where
  a : Word
  b : Word
  c : Word
  d : Word
  e : Word
deriving DecidableEq, Repr

/-- The mixing functions `F0` to `F4` (R54). -/
def mixF : Fin 5 → Word → Word → Word → Word
  | 0, x, y, z => x ^^^ y ^^^ z
  | 1, x, y, z => (x &&& y) ||| (~~~x &&& z)
  | 2, x, y, z => (x ||| ~~~y) ^^^ z
  | 3, x, y, z => (x &&& z) ||| (y &&& ~~~z)
  | 4, x, y, z => x ^^^ (y ||| ~~~z)

/-- The function of round `r` (R55): `F_r` on the left line, `F_(4-r)` on the right. -/
def mixOf : Side → Fin 5 → Word → Word → Word → Word
  | .left, r => mixF r
  | .right, r => mixF r.rev

/-- The additive constants `KL` (R56). -/
def kL : Vector Word 5 := #v[0x00000000, 0x5A827999, 0x6ED9EBA1, 0x8F1BBCDC, 0xA953FD4E]

/-- The additive constants `KR` (R56). -/
def kR : Vector Word 5 := #v[0x50A28BE6, 0x5C4DD124, 0x6D703EF3, 0x7A6D76E9, 0x00000000]

/-- The message-word selection table `RL` (R57). -/
def rL : Vector (Vector (Fin 16) 16) 5 := #v[
  #v[0, 1, 2, 3, 4, 5, 6, 7, 8, 9, 10, 11, 12, 13, 14, 15],
  #v[7, 4, 13, 1, 10, 6, 15, 3, 12, 0, 9, 5, 2, 14, 11, 8],
  #v[3, 10, 14, 4, 9, 15, 8, 1, 2, 7, 0, 6, 13, 11, 5, 12],
  #v[1, 9, 11, 10, 0, 8, 12, 4, 13, 3, 7, 15, 14, 5, 6, 2],
  #v[4, 0, 5, 9, 7, 12, 2, 10, 14, 1, 3, 8, 11, 6, 15, 13]]

/-- The message-word selection table `RR` (R57). -/
def rR : Vector (Vector (Fin 16) 16) 5 := #v[
  #v[5, 14, 7, 0, 9, 2, 11, 4, 13, 6, 15, 8, 1, 10, 3, 12],
  #v[6, 11, 3, 7, 0, 13, 5, 10, 14, 15, 8, 12, 4, 9, 1, 2],
  #v[15, 5, 1, 3, 7, 14, 6, 9, 11, 8, 12, 2, 10, 0, 4, 13],
  #v[8, 6, 4, 1, 3, 11, 15, 0, 5, 12, 2, 13, 9, 7, 10, 14],
  #v[12, 15, 10, 4, 1, 5, 8, 7, 6, 2, 13, 14, 0, 3, 9, 11]]

/-- The rotation table `SL` (R58), indexed by the step, not by the message word. -/
def sL : Vector (Vector Nat 16) 5 := #v[
  #v[11, 14, 15, 12, 5, 8, 7, 9, 11, 13, 14, 15, 6, 7, 9, 8],
  #v[7, 6, 8, 13, 11, 9, 7, 15, 7, 12, 15, 9, 11, 7, 13, 12],
  #v[11, 13, 6, 7, 14, 9, 13, 15, 14, 8, 13, 6, 5, 12, 7, 5],
  #v[11, 12, 14, 15, 14, 15, 9, 8, 9, 14, 5, 6, 8, 6, 5, 12],
  #v[9, 15, 5, 11, 6, 8, 13, 12, 5, 12, 13, 14, 11, 8, 5, 6]]

/-- The rotation table `SR` (R58). -/
def sR : Vector (Vector Nat 16) 5 := #v[
  #v[8, 9, 9, 11, 13, 15, 15, 5, 7, 7, 8, 11, 14, 14, 12, 6],
  #v[9, 13, 15, 7, 12, 8, 9, 11, 7, 7, 12, 7, 6, 15, 13, 11],
  #v[9, 7, 15, 11, 8, 6, 6, 14, 12, 13, 5, 14, 13, 13, 7, 5],
  #v[15, 5, 8, 11, 14, 14, 6, 14, 6, 9, 12, 9, 12, 5, 15, 8],
  #v[8, 5, 12, 9, 12, 5, 14, 6, 8, 13, 6, 5, 15, 13, 11, 11]]

/-- The additive constant of round `r` on a line (R56). -/
def kOf : Side → Fin 5 → Word
  | .left, r => kL[r]
  | .right, r => kR[r]

/-- The index of the message word used in step `j` of round `r` on a line (R57). -/
def selOf : Side → Fin 5 → Fin 16 → Fin 16
  | .left, r, j => rL[r][j]
  | .right, r, j => rR[r][j]

/-- The rotation amount of step `j` of round `r` on a line (R58). -/
def rotOf : Side → Fin 5 → Fin 16 → Nat
  | .left, r, j => sL[r][j]
  | .right, r, j => sR[r][j]

/-- `STEP` (R59, conflict C1): the rotated sum PLUS E becomes B; all right-hand sides use the registers from before. -/
def stepRegs (side : Side) (x : Vector Word 16) (r : Fin 5) (j : Fin 16) (g : Regs) : Regs :=
  let t := g.a + mixOf side r g.b g.c g.d + x[selOf side r j] + kOf side r
  { a := g.e, b := rol t (rotOf side r j) + g.e, c := g.b, d := rol g.c 10, e := g.d }

/-- The round indices in order (R60). -/
def roundIndices : List (Fin 5) := [0, 1, 2, 3, 4]

/-- The step indices of one round in order (R60). -/
def stepIndices : List (Fin 16) := [0, 1, 2, 3, 4, 5, 6, 7, 8, 9, 10, 11, 12, 13, 14, 15]

/-- The registers a line starts with (R53): A to E from h0 to h4. -/
def loadRegs (h : DigestState) : Regs := ⟨h.h0, h.h1, h.h2, h.h3, h.h4⟩

/-- The sixteen steps of one round of a line (R60). -/
def roundRegs (side : Side) (x : Vector Word 16) (g : Regs) (r : Fin 5) : Regs :=
  stepIndices.foldl (fun g j => stepRegs side x r j g) g

/-- `LINE_L` and `LINE_R` (R60): five rounds of sixteen steps. -/
def line (side : Side) (h : DigestState) (x : Vector Word 16) : Regs :=
  roundIndices.foldl (roundRegs side x) (loadRegs h)

/-- The combination (R62, conflict C2), all five words from the old state. -/
def combine (h : DigestState) (l r : Regs) : DigestState :=
  { h0 := h.h1 + l.c + r.d, h1 := h.h2 + l.d + r.e, h2 := h.h3 + l.e + r.a, h3 := h.h4 + l.a + r.b, h4 := h.h0 + l.b + r.c }

/-- The compression function `CF` (R63). -/
def cf (h : DigestState) (b : Block) : DigestState :=
  combine h (line .left h (words b)) (line .right h (words b))

/-- One compression per block, in order, each from the result of the one before (R66). -/
def absorb (h : DigestState) (bs : List Block) : DigestState := bs.foldl cf h

/-- The two lines run under a schedule that says, step by step, which line takes its next step (R61): a line's `k`-th step
is step `k % 16` of round `k / 16`. The state is each line's registers with the number of steps it has taken. -/
def runSchedule (h : DigestState) (x : Vector Word 16) (schedule : List Side) : (Regs × Nat) × (Regs × Nat) :=
  schedule.foldl (fun g side =>
    match side with
    | .left => ((stepRegs .left x (Fin.ofNat 5 (g.1.2 / 16)) (Fin.ofNat 16 g.1.2) g.1.1, g.1.2 + 1), g.2)
    | .right => (g.1, (stepRegs .right x (Fin.ofNat 5 (g.2.2 / 16)) (Fin.ofNat 16 g.2.2) g.2.1, g.2.2 + 1)))
    ((loadRegs h, 0), (loadRegs h, 0))

end Sys2Proof.Machine
end

