-- ==== Sys2Proof/Machine/Padding.lean ====
section
/-! DEFINITION. Padding and segmentation (spec 41_padding.md R45, R48, R49) and the digest as a pure function of the
message (43_digest.md R75). -/

namespace Sys2Proof.Machine

/-- `zeros(k)` (R7). -/
def zeros (k : Nat) : List Byte := List.replicate k 0x00

/-- The number `z` of zero bytes (R45, R49): the non-negative residue of `55 - n` modulo 64. -/
def padZeros (n : Nat) : Nat := (119 - n % 64) % 64

/-- `PAD` (R45): the message, one byte 0x80, the zero run, and the bit length of the message. R45 defines it for messages whose
bit length is at most 2^64 - 1; of a longer list this encodes the bit length modulo 2^64 (DESIGN CHOICE, assumption log 16). -/
def pad (m : List Byte) : List Byte :=
  m ++ [0x80] ++ zeros (padZeros m.length) ++ le64 (BitVec.ofNat 64 (8 * m.length))

/-- `TAIL` (R49): the last partial block padded, with the length field taken from the running count. -/
def tailBytes (t : List Byte) (bitlen : Len) : List Byte :=
  t ++ [0x80] ++ zeros (padZeros t.length) ++ le64 bitlen

/-- `BLOCKS` (R48): the consecutive 64-byte chunks `P[64k .. 64k+63]`. R48 defines it for lengths that are a multiple of
64; of any other list this gives the full chunks, which is how a host cuts a message (R38). -/
def blocks (p : List Byte) : List Block :=
  (List.range (p.length / 64)).map fun k => Block.ofList ((p.drop (64 * k)).take 64)

/-- The last `L mod 64` bytes of a message, those a host gives to `LAST` (R38). -/
def lastFragment (m : List Byte) : List Byte := m.drop (64 * (m.length / 64))

/-- `DIGEST` (R75), the source's `ripemd160`. R75 defines it for messages of at most 2^61 - 1 bytes; of a longer list, for which
the spec gives no digest, this is a value of the model's own (DESIGN CHOICE, assumption log 16). -/
def digest (m : List Byte) : List Byte := ser (absorb DigestState.iv (blocks (pad m)))

end Sys2Proof.Machine
end

