-- ==== Sys2Proof/Machine/Ops.lean ====
section
/-! DEFINITION. The operations every command is made of: answering (accepting or rejecting, spec 00_scope.md R8,
30_encoding.md R34), starting a message, absorbing blocks, raising InputTooLarge, and reset. Rejecting a command is the
engine's only exception (60_exceptions.md R85): `reject` is the one place where it is taken. There is no return from it
(R86): the host issues its next command. -/

namespace Sys2Proof.Machine

/-- Deliver one response: its header shows the state after the command; result fields a rule does not assign are zero
(R8, R34). -/
def State.respond (s : State) (cause : Option Cause) (rw : Word) (rdata : List Byte) : State :=
  { s with responses := s.responses ++ [⟨rhdr cause s, rw, padTo 20 rdata⟩] }

/-- `accept` (R8): ACK = 1, CAUSE = 0, no result. -/
def State.accept (s : State) : State := s.respond none 0 []

/-- `accept` with the Word result `RW`. -/
def State.acceptWord (s : State) (rw : Word) : State := s.respond none rw []

/-- `accept` with the result bytes `RDATA[0..]`, the rest zero. -/
def State.acceptBytes (s : State) (rdata : List Byte) : State := s.respond none 0 rdata

/-- `raise` (R8, R85): the command is rejected; its whole effect is the response with ACK = 0, the cause, and zero results.
Nothing is saved and nothing is vectored. -/
def State.reject (s : State) (cause : Cause) : State := s.respond (some cause) 0 []

/-- The registers as INIT and reset leave them (R71, R100): `H = IV`, `LEN = 0`, `PHASE = INIT`, `ERR = 0`. -/
def State.startMessage (s : State) : State :=
  { s with h := DigestState.iv, len := 0, phase := .init, err := false }

/-- The reset input (70_reset_and_hazards.md R101): the registers of R100 whatever they were. No response is delivered; the
responses already delivered and what the host will do next are the host's and stay. -/
def State.resetEngine (s : State) : State := s.startMessage

/-- The message is finished or broken: `PHASE = FINAL` or `PHASE = ERROR`, where BLOCK and LAST are rejected (R82). -/
def State.closed (s : State) : Bool := s.phase == .final || s.phase == .error

/-- One more block does not fit the 64-bit count (R65, R81): `LEN + 512 > 2^64 - 1`, compared without wrapping. -/
def State.full (s : State) : Bool := decide (s.len.toNat + Config.blockBits > Config.maxBitLen)

/-- The two writes of INPUT_TOO_LARGE (R81); `H` and `LEN` keep their values. -/
def State.breakMessage (s : State) : State := { s with err := true, phase := .error }

/-- One full block absorbed (R65): one compression, 512 more bits, `PHASE <- PROC`. -/
def State.absorbBlock (s : State) (b : Block) : State :=
  { s with h := cf s.h b, len := s.len + 512, phase := .proc }

/-- The bit length `LEN + 8*N` of R50 as a 64-bit sum; in every reachable state it does not wrap (R50, R19; assumption
log 6). -/
def State.bitlen (s : State) (n : Nat) : Len := s.len + BitVec.ofNat 64 (8 * n)

/-- The last fragment absorbed (R50): the blocks of its `TAIL`, `LEN` the total, `PHASE <- FINAL`. -/
def State.absorbTail (s : State) (t : List Byte) : State :=
  { s with h := absorb s.h (blocks (tailBytes t (s.bitlen t.length))), len := s.bitlen t.length, phase := .final }

end Sys2Proof.Machine
end

