-- ==== Sys2Proof/Machine/Codec.lean ====
section
/-! DEFINITION. The codec commands (spec 40_codec.md): PACK and UNPACK. They read and write no state and are accepted in
every phase (R43). -/

namespace Sys2Proof.Machine

/-- `PACK` (R40). -/
def execPack (b0 b1 b2 b3 : Byte) (s : State) : Host.Outcome State Fault Refusal :=
  .next (s.acceptWord (pack b0 b1 b2 b3))

/-- `UNPACK` (R41). -/
def execUnpack (w : Word) (s : State) : Host.Outcome State Fault Refusal :=
  .next (s.acceptBytes (unpackBytes w))

end Sys2Proof.Machine
end

