-- ==== Sys2Proof/Machine/Message.lean ====
section
/-! DEFINITION. The commands of a message: BLOCK (spec 42_compression.md R65), LAST (41_padding.md R50), INIT, READ and
STAT (43_digest.md R71, R72, R73). The checks stand in the order of 60_exceptions.md R84: PROTOCOL, then INPUT_TOO_LARGE. -/

namespace Sys2Proof.Machine

/-- `STAT` (R73): the response is its only effect. -/
def execStat (s : State) : Host.Outcome State Fault Refusal := .next s.accept

/-- `INIT` (R71): accepted in every phase. -/
def execInit (s : State) : Host.Outcome State Fault Refusal := .next s.startMessage.accept

/-- `BLOCK` (R65). -/
def execBlock (data : Block) (s : State) : Host.Outcome State Fault Refusal :=
  if s.closed then .next (s.reject .protocol)
  else if s.full then .next (s.breakMessage.reject .inputTooLarge)
  else .next (s.absorbBlock data).accept

/-- `LAST` (R50). -/
def execLast (tail : List Byte) (s : State) : Host.Outcome State Fault Refusal :=
  if s.closed then .next (s.reject .protocol)
  else .next (s.absorbTail tail).accept

/-- `READ` (R72): the digest in FINAL, a rejection with zero result bytes in every other phase. -/
def execRead (s : State) : Host.Outcome State Fault Refusal :=
  if s.phase = .final then .next (s.acceptBytes (ser s.h))
  else .next (s.reject .protocol)

end Sys2Proof.Machine
end

