-- ==== Sys2Proof/Machine/Dispatch.lean ====
section
/-! DEFINITION. One arm per command of the opcode map (spec 30_encoding.md R33). -/

namespace Sys2Proof.Machine

def exec (i : Instr) (s : State) : Host.Outcome State Fault Refusal :=
  match i with
  | .stat => Sys2Proof.Machine.execStat s
  | .init => Sys2Proof.Machine.execInit s
  | .block data => Sys2Proof.Machine.execBlock data s
  | .last tail => Sys2Proof.Machine.execLast tail s
  | .read => Sys2Proof.Machine.execRead s
  | .pack b0 b1 b2 b3 => Sys2Proof.Machine.execPack b0 b1 b2 b3 s
  | .unpack w => Sys2Proof.Machine.execUnpack w s

end Sys2Proof.Machine
end

