-- ==== Sys2Proof/Machine/Port.lean ====
section
/-! DEFINITION. The command port: what one event of the host does to the engine (spec 00_scope.md R5, 20_memory.md R26,
R28, 70_reset_and_hazards.md R101). -/

namespace Sys2Proof.Machine

/-- One command, taken whole (R26): a header that decodes runs its command, any other is rejected with ILLEGAL, which is
checked before everything else (60_exceptions.md R83, R84). -/
def takeCommand (c : Command) (s : State) : Host.Outcome State Fault Refusal :=
  match decode c with
  | .ok i => exec i s
  | .error _ => .next (s.reject .illegal)

/-- One event of the host. A reset asserted while a command runs abandons the command: no effect, no response (R101). -/
def takeEvent (e : HostEvent) (s : State) : Host.Outcome State Fault Refusal :=
  match e with
  | .command c => takeCommand c s
  | .reset => .next s.resetEngine
  | .resetDuring _ => .next s.resetEngine

/-- The state with the first presented event taken off the port. -/
def State.dropInput (s : State) : State := { s with inputs := s.inputs.tail }

/-- The host presents these events next, before what it was going to do. -/
def State.present (s : State) (es : List HostEvent) : State := { s with inputs := es ++ s.inputs }

/-- The four pieces of architectural state of 10_state.md R10, without the two sides of the port. -/
def State.registers (s : State) : DigestState × Len × Phase × Bool := (s.h, s.len, s.phase, s.err)

end Sys2Proof.Machine
end

