-- ==== Sys2Proof/Machine/Step.lean ====
section
/-! DEFINITION. One step: the engine takes the host's next event (spec 00_scope.md R5, 20_memory.md R26). There is no
program counter and no fetch from memory; a command is whatever the host presents next (10_state.md R13, R28). -/

namespace Sys2Proof.Machine

/-- One step of the machine. With nothing presented the engine keeps its state (60_exceptions.md R94). -/
def step (s : State) : Host.Outcome State Fault Refusal :=
  match s.inputs with
  | [] => .next s
  | e :: _ => takeEvent e s.dropInput

/-- The state in which the host presents next the command whose first `nbits` bits are those of `w`, the others zero; what
the host was going to present comes after it (assumption log 2). -/
def State.withFetchWord (s : State) (nbits w : Nat) : State :=
  s.present [.command (commandOfBits (w % 2 ^ nbits))]

end Sys2Proof.Machine
end

