-- ==== Sys2Proof/Machine/Assembly.lean ====
section
/-! DEFINITION. The assembler syntax of spec 30_encoding.md R37 and the pseudo-instruction DIGEST of R38: what one line of
a program assembles to, and how a line is read. Spacing and letter case beyond R37's table are the model's choice
(assumption log 8). -/

namespace Sys2Proof.Machine

/-- One line of a program (R37, R38). -/
inductive AsmLine where
  /-- one of the seven commands -/
  | command (i : Instr)
  /-- the directive `.hdr 0x....`: a raw header, the other parts zero -/
  | rawHeader (h : BitVec 16)
  /-- the pseudo-instruction `DIGEST <message>` -/
  | digest (m : List Byte)
deriving DecidableEq, Repr

/-- The expansion of `DIGEST <message>` (R38): INIT, one BLOCK per full block, one LAST, one READ. R38 defines it for messages of
at most 2^61 - 1 bytes; a longer one is parsed and expanded in the same way, and its 2^55-th BLOCK is rejected with
INPUT_TOO_LARGE (DESIGN CHOICE, assumption log 16). -/
def expandDigest (m : List Byte) : List Instr :=
  [.init] ++ (blocks m).map .block ++ [.last (lastFragment m)] ++ [.read]

/-- The command records a line assembles to (R37, R38). -/
def assembleLine : AsmLine → List Command
  | .command i => [encode i]
  | .rawHeader h => [⟨h, 0, Block.ofList []⟩]
  | .digest m => (expandDigest m).map encode

/-- The value of a hexadecimal digit, in either letter case. -/
def hexDigit (c : Char) : Option Nat :=
  let v := c.toNat
  if 48 ≤ v ∧ v ≤ 57 then some (v - 48)
  else if 97 ≤ v ∧ v ≤ 102 then some (v - 87)
  else if 65 ≤ v ∧ v ≤ 70 then some (v - 55)
  else none

/-- A byte string: two hexadecimal digits a byte, byte 0 first, no separators (R7, R37). -/
def hexBytes : List Char → Option (List Byte)
  | [] => some []
  | a :: b :: rest =>
    match hexDigit a, hexDigit b, hexBytes rest with
    | some x, some y, some bs => some (BitVec.ofNat 8 (16 * x + y) :: bs)
    | _, _, _ => none
  | _ => none

/-- The value of a run of hexadecimal digits, the most significant first (R7). -/
def hexValue : List Char → Nat → Option Nat
  | [], acc => some acc
  | c :: rest, acc =>
    match hexDigit c with
    | some d => hexValue rest (16 * acc + d)
    | none => none

/-- A number of exactly `k` hexadecimal digits after `0x` (R37). -/
def hexNumber (k : Nat) : List Char → Option Nat
  | '0' :: 'x' :: digits => if digits.length = k then hexValue digits 0 else none
  | _ => none

/-- The double quote character. -/
def quoteChar : Char := Char.ofNat 34

/-- The bytes of ASCII text (R7). -/
def asciiBytes (cs : List Char) : List Byte := cs.map fun c => BitVec.ofNat 8 c.toNat

/-- A byte string operand: quoted ASCII text, or hexadecimal digits (R37). -/
def byteString (cs : List Char) : Option (List Byte) :=
  match cs with
  | [] => some []
  | q :: rest =>
    if q = quoteChar then
      if rest.getLast? = some quoteChar ∧ rest.dropLast.all (fun c => c.toNat < 128 && c != quoteChar)
      then some (asciiBytes rest.dropLast) else none
    else hexBytes cs

/-- The four operands of PACK: bytes separated by commas, spaces ignored (R37). -/
def packOperands (cs : List Char) : Option (List Byte) :=
  match cs.filter (· ≠ ' ') with
  | [a, b, ',', c, d, ',', e, f, ',', g, h] => hexBytes [a, b, c, d, e, f, g, h]
  | _ => none

/-- What a mnemonic or alias of R37 and R38 stands for. -/
inductive AsmName where
  | stat
  | init
  | block
  | last
  | read
  | pack
  | unpack
  | hdr
  | digest
deriving DecidableEq, Repr

/-- The names of R37 and R38: the mnemonics, the directive, and the source's names as aliases. -/
def asmNames : List (String × AsmName) :=
  [("STAT", .stat), ("INIT", .init), ("BLOCK", .block), ("LAST", .last), ("READ", .read), ("PACK", .pack),
   ("UNPACK", .unpack), (".hdr", .hdr), ("DIGEST", .digest), ("bytes_to_word", .pack), ("u8s_to_u32", .pack),
   ("word_to_bytes", .unpack), ("u32_to_u8s", .unpack), ("ripemd160", .digest)]

/-- The meaning of a name. -/
def asmName (name : String) : Option AsmName := (asmNames.find? fun p => p.1 = name).map (·.2)

/-- The line with this name and this operand text (R37, R38); none where it is not of the syntax. -/
def parseOperands (n : AsmName) (operands : List Char) : Option AsmLine :=
  match n with
  | .stat => if operands = [] then some (.command .stat) else none
  | .init => if operands = [] then some (.command .init) else none
  | .read => if operands = [] then some (.command .read) else none
  | .block =>
    match byteString operands with
    | some bs => if bs.length = 64 then some (.command (.block (Block.ofList bs))) else none
    | none => none
  | .last =>
    match byteString operands with
    | some bs => if bs.length ≤ 63 then some (.command (.last bs)) else none
    | none => none
  | .pack =>
    match packOperands operands with
    | some [b0, b1, b2, b3] => some (.command (.pack b0 b1 b2 b3))
    | _ => none
  | .unpack => (hexNumber 8 operands).map fun v => .command (.unpack (BitVec.ofNat 32 v))
  | .hdr => (hexNumber 4 operands).map fun v => .rawHeader (BitVec.ofNat 16 v)
  | .digest => (byteString operands).map .digest

/-- One line of text: the name up to the first space, then the operands (R37). -/
def parseLine (text : String) : Option AsmLine :=
  let cs := text.toList
  match asmName (String.ofList (cs.takeWhile (· ≠ ' '))) with
  | some n => parseOperands n ((cs.dropWhile (· ≠ ' ')).drop 1)
  | none => none

end Sys2Proof.Machine
end

