-- ==== Sys2Proof/Machine/Cluster.lean ====
section
/-! DEFINITION. Several engines side by side (spec 60_exceptions.md R92): a list of engines, each with its own state, port
and reset, of which one takes a step at a time. Stated for claims about independence; the machine of Machine/Core.lean is
one engine. -/

namespace Sys2Proof.Machine

/-- One step of the engine at index `k`; an index without an engine changes nothing. -/
def stepEngine (k : Nat) (engines : List State) : Host.Outcome (List State) Fault Refusal :=
  match engines[k]? with
  | none => .next engines
  | some s =>
    match step s with
    | .next t => .next (engines.set k t)
    | .fault f => .fault f
    | .refused r => .refused r

end Sys2Proof.Machine
end

