-- ==== Sys2Proof/Safety.lean ====
section
/-! DEFINITION. What holds of every state a host can reach (spec 10_state.md R19), which states those are, and which
commands leave the digest alone (43_digest.md R77). -/

namespace Sys2Proof

open Sys2Proof.Machine

/-- The invariant of R19, clause by clause. -/
structure StateInv (s : State) : Prop where
  /-- (a) -/
  init_fresh : s.phase = .init → s.h = DigestState.iv ∧ s.len = 0
  /-- (b) -/
  proc_len : s.phase = .proc → s.len.toNat % 512 = 0 ∧ 512 ≤ s.len.toNat ∧ s.len.toNat ≤ 2 ^ 64 - 512
  /-- (c) -/
  final_len : s.phase = .final → s.len.toNat % 8 = 0 ∧ s.len.toNat ≤ 2 ^ 64 - 8
  /-- (d) -/
  err_iff : s.err = true ↔ s.phase = .error
  /-- (e) -/
  error_len : s.phase = .error → s.len.toNat = 2 ^ 64 - 512

/-- The states a host can bring the engine to: those some number of steps after reset, whatever the host does. -/
def Reachable (s : State) : Prop :=
  ∃ (events : List HostEvent) (k : Nat), Host.Core.run Sys2Proof.core k (State.reset.present events) = .next s

/-- The command, taken in this state, belongs to no message: it is STAT, READ, PACK or UNPACK, or its header is illegal, or
it is a BLOCK or LAST that the phase rejects with PROTOCOL (60_exceptions.md R82). -/
def Passive (c : Command) (s : State) : Prop :=
  match decode c with
  | .error _ => True
  | .ok .stat => True
  | .ok .init => False
  | .ok (.block _) => s.phase = .final ∨ s.phase = .error
  | .ok (.last _) => s.phase = .final ∨ s.phase = .error
  | .ok .read => True
  | .ok (.pack _ _ _ _) => True
  | .ok (.unpack _) => True

end Sys2Proof
end

