-- ==== Sys2Proof/Certificates/Slice0/Obligations.lean ====
section
/-! DEFINITION. The statements for the provers. Each docstring names the rule of the spec the statement formalises. The helpers
of `Sys2Proof.Spec` say in numbers what the model computes with bit vectors, so that a statement does not repeat a definition. -/

namespace Sys2Proof.Spec

open Sys2Proof.Machine

/-- The phase codes of 10_state.md R13. -/
def phaseNumber : Phase → Nat
  | .init => 0
  | .proc => 1
  | .final => 2
  | .error => 3

/-- RHDR of 30_encoding.md R34 as a number: ERR is bit 5, PHASE bits 4:3, CAUSE bits 2:1, and ACK, bit 0, is 1 for cause 0. -/
def header (err : Bool) (p : Phase) (cause : Nat) : BitVec 8 :=
  BitVec.ofNat 8 (32 * err.toNat + 8 * phaseNumber p + 2 * cause + if cause = 0 then 1 else 0)

/-- Twenty result bytes: the list's, then zeros (R34). -/
def results (l : List Byte) : Vector Byte 20 := Vector.ofFn fun (i : Fin 20) => l.getD i.val 0

/-- The state after one command: the four registers as given, the host's coming events as before, and one response more, whose
header shows the new phase and error bit and the cause (0 accepted, 1 INPUT_TOO_LARGE, 2 PROTOCOL, 3 ILLEGAL). -/
def after (s : State) (h : DigestState) (len : Len) (p : Phase) (err : Bool) (cause : Nat) (rw : Word) (rdata : List Byte) :
    State :=
  { h := h, len := len, phase := p, err := err, inputs := s.inputs,
    responses := s.responses ++ [⟨header err p cause, rw, results rdata⟩] }

/-- The state after a command that writes no register: only the response is new. -/
def answered (s : State) (cause : Nat) (rw : Word) (rdata : List Byte) : State :=
  after s s.h s.len s.phase s.err cause rw rdata

/-- The message is open: BLOCK and LAST are taken (R76). -/
def Open (s : State) : Prop := s.phase = .init ∨ s.phase = .proc

/-- The header fields of R31 as numbers. -/
def opOf (c : Command) : Nat := c.hdr.toNat % 16
def nOf (c : Command) : Nat := c.hdr.toNat / 16 % 64
def rsvOf (c : Command) : Nat := c.hdr.toNat / 1024

/-- The headers that spell no command (R35, R36). -/
def BadHeader (c : Command) : Prop := rsvOf c ≠ 0 ∨ 7 ≤ opOf c ∨ (opOf c ≠ 3 ∧ nOf c ≠ 0)

/-- The cause a command is answered with, by the fixed order of 60_exceptions.md R84: ILLEGAL from the header, PROTOCOL from the
command and the phase, INPUT_TOO_LARGE from LEN, and 0 when none applies. -/
def causeOf (c : Command) (s : State) : Nat :=
  match decode c with
  | .error _ => 3
  | .ok (.block _) => if s.phase = .final ∨ s.phase = .error then 2 else if s.len.toNat + 512 > 2 ^ 64 - 1 then 1 else 0
  | .ok (.last _) => if s.phase = .final ∨ s.phase = .error then 2 else 0
  | .ok .read => if s.phase = .final then 0 else 2
  | .ok .stat => 0
  | .ok .init => 0
  | .ok (.pack _ _ _ _) => 0
  | .ok (.unpack _) => 0

/-- The table of 43_digest.md R76 for a command: the next phase and the cause, from the phase and whether `LEN = 2^64 - 512`. -/
def transition (i : Instr) (p : Phase) (atLimit : Bool) : Phase × Nat :=
  match i, p with
  | .stat, p => (p, 0)
  | .init, _ => (.init, 0)
  | .block _, .init => (.proc, 0)
  | .block _, .proc => if atLimit then (.error, 1) else (.proc, 0)
  | .block _, .final => (.final, 2)
  | .block _, .error => (.error, 2)
  | .last _, .init => (.final, 0)
  | .last _, .proc => (.final, 0)
  | .last _, .final => (.final, 2)
  | .last _, .error => (.error, 2)
  | .read, .init => (.init, 2)
  | .read, .proc => (.proc, 2)
  | .read, .final => (.final, 0)
  | .read, .error => (.error, 2)
  | .pack _ _ _ _, p => (p, 0)
  | .unpack _, p => (p, 0)

/-- The words of a digest state by index (10_state.md R11). -/
def wordOf (h : DigestState) : Nat → Word
  | 0 => h.h0
  | 1 => h.h1
  | 2 => h.h2
  | 3 => h.h3
  | _ => h.h4

/-- The operands two commands with one header must share to be the same command: what the format of R32 reads. -/
def SameOperands (c d : Command) : Prop :=
  (opOf c = 2 → c.data = d.data) ∧
  (opOf c = 3 → ∀ k, k < nOf c → c.data.toList[k]? = d.data.toList[k]?) ∧
  (opOf c = 5 → ∀ k, k < 4 → c.data.toList[k]? = d.data.toList[k]?) ∧
  (opOf c = 6 → c.w = d.w)

end Sys2Proof.Spec

open Sys2Proof Sys2Proof.Machine Sys2Proof.Spec

/-! ### Encoding and the step -/

/-- When the command the host presents decodes to `i`, the step is `exec i` on the state with that event taken off the port
(20_memory.md R26, R28). -/
def Obligations.StepRunsDecodedCommand : Prop :=
  ∀ (s : State) (c : Command) (rest : List HostEvent) (i : Instr),
    s.inputs = .command c :: rest → decode c = .ok i → step s = exec i { s with inputs := rest }

/-- 30_encoding.md R35: the five lines of `decode`, and the count of legal headers. -/
def Obligations.DecodeFollowsHeaderFields : Prop :=
  (∀ c : Command,
    (rsvOf c ≠ 0 → ∃ e, decode c = .error e) ∧
    (7 ≤ opOf c → ∃ e, decode c = .error e) ∧
    (opOf c ≠ 3 → nOf c ≠ 0 → ∃ e, decode c = .error e) ∧
    (rsvOf c = 0 → opOf c = 3 → decode c = .ok (.last (c.data.toList.take (nOf c)))) ∧
    (rsvOf c = 0 → nOf c = 0 →
      (opOf c = 0 → decode c = .ok .stat) ∧
      (opOf c = 1 → decode c = .ok .init) ∧
      (opOf c = 2 → decode c = .ok (.block c.data)) ∧
      (opOf c = 4 → decode c = .ok .read) ∧
      (opOf c = 5 → decode c = .ok (.pack c.data[0] c.data[1] c.data[2] c.data[3])) ∧
      (opOf c = 6 → decode c = .ok (.unpack c.w)))) ∧
  (∀ (w : Word) (data : Block), (List.range 65536).countP (fun h => (decode ⟨BitVec.ofNat 16 h, w, data⟩).isOk) = 70)

/-- 30_encoding.md R33: the rows of the opcode map; a header that decodes selects exactly one of them, the row of its command; a
header that selects a row decodes to that row's command; and the header of LAST with count n is `(n << 4) | 3`. -/
def Obligations.OpcodeMapSelectsCommand : Prop :=
  (opcodeMap.map fun r => (r.mnemonic, r.format, r.value.toNat, r.mask.toNat)) =
    [("STAT", .z, 0x0000, 0xFFFF), ("INIT", .z, 0x0001, 0xFFFF), ("BLOCK", .b, 0x0002, 0xFFFF), ("LAST", .l, 0x0003, 0xFC0F),
     ("READ", .z, 0x0004, 0xFFFF), ("PACK", .p, 0x0005, 0xFFFF), ("UNPACK", .u, 0x0006, 0xFFFF)] ∧
  (∀ (c : Command) (i : Instr), decode c = .ok i →
    ∃ r ∈ opcodeMap, r.selects c.hdr = true ∧ r.mnemonic = i.mnemonic ∧ r.format = i.format ∧
      ∀ r' ∈ opcodeMap, r'.selects c.hdr = true → r' = r) ∧
  (∀ (c : Command), ∀ r ∈ opcodeMap, r.selects c.hdr = true →
    ∃ i, decode c = .ok i ∧ i.mnemonic = r.mnemonic ∧ i.format = r.format) ∧
  (∀ t : List Byte, t.length ≤ 63 → encodeHeader (.last t) = BitVec.ofNat 16 (16 * t.length + 3))

/-- Headers written out from the table of 30_encoding.md R33 and from 95_test_vectors.md section 7.1. -/
def Obligations.WrittenHeadersDecode : Prop :=
  ∀ (w : Word) (data : Block),
    decode ⟨0b0000000000000000, w, data⟩ = .ok .stat ∧
    decode ⟨0b0000000000000001, w, data⟩ = .ok .init ∧
    decode ⟨0b0000000000000010, w, data⟩ = .ok (.block data) ∧
    decode ⟨0b0000000000110011, w, data⟩ = .ok (.last [data[0], data[1], data[2]]) ∧
    decode ⟨0b0000000000000100, w, data⟩ = .ok .read ∧
    decode ⟨0b0000000000000101, w, data⟩ = .ok (.pack data[0] data[1] data[2] data[3]) ∧
    decode ⟨0b0000000000000110, w, data⟩ = .ok (.unpack w) ∧
    decode ⟨0b0000000000000111, w, data⟩ = .error .reservedOpcode ∧
    decode ⟨0b0000001111110110, w, data⟩ = .error .strayCount ∧
    decode ⟨0b0000010000000011, w, data⟩ = .error .reservedBits

/-- Decoding the encoding of a well-formed command gives it back, every operand included (30_encoding.md R33, R35, R37). -/
def Obligations.DecodeEncodeRoundTrip : Prop :=
  ∀ i : Instr, i.wellFormed = true → decode (encode i) = .ok i

/-- A decoded command is well formed, and encoding it gives the header it was decoded from (30_encoding.md R33, R35). -/
def Obligations.DecodedCommandReencodes : Prop :=
  ∀ (c : Command) (i : Instr), decode c = .ok i → i.wellFormed = true ∧ (encode i).hdr = c.hdr ∧ decode (encode i) = .ok i

/-- 60_exceptions.md R83: exactly the headers that spell no command fail to decode, whatever W and DATA are, and such a command
is rejected with CAUSE 3 in every phase, with no register changed and zero results. -/
def Obligations.IllegalHeaderRejected : Prop :=
  (∀ c : Command, (∃ e, decode c = .error e) ↔ BadHeader c) ∧
  (∀ (s : State) (c : Command) (rest : List HostEvent), s.inputs = .command c :: rest → BadHeader c →
    step s = .next (answered { s with inputs := rest } 3 0 []))

/-- Operand fields a command does not read do not matter: two commands with one header that agree on what the format reads take
every state to the same state (20_memory.md R24, 30_encoding.md R32). -/
def Obligations.UnreadOperandsIgnored : Prop :=
  ∀ (s : State) (c d : Command) (rest : List HostEvent), c.hdr = d.hdr → SameOperands c d →
    step { s with inputs := .command c :: rest } = step { s with inputs := .command d :: rest }

/-! ### The codec -/

/-- 40_codec.md R40. -/
def Obligations.PackResult : Prop :=
  (∀ (b0 b1 b2 b3 : Byte) (s : State),
    exec (.pack b0 b1 b2 b3) s = .next (answered s 0
      (b0.setWidth 32 ||| (b1.setWidth 32 <<< 8) ||| (b2.setWidth 32 <<< 16) ||| (b3.setWidth 32 <<< 24)) [])) ∧
  (∀ b0 b1 b2 b3 : Byte,
    (pack b0 b1 b2 b3).toNat = b0.toNat + 256 * b1.toNat + 65536 * b2.toNat + 16777216 * b3.toNat ∧
    (pack b0 b1 b2 b3).extractLsb' 0 8 = b0 ∧ (pack b0 b1 b2 b3).extractLsb' 8 8 = b1 ∧
    (pack b0 b1 b2 b3).extractLsb' 16 8 = b2 ∧ (pack b0 b1 b2 b3).extractLsb' 24 8 = b3) ∧
  (∀ c : Command, c.hdr = 0x0005 → decode c = .ok (.pack c.data[0] c.data[1] c.data[2] c.data[3])) ∧
  pack 0x01 0x02 0x03 0x04 = 0x04030201 ∧ pack 0 0 0 0 = 0 ∧ pack 0xFF 0xFF 0xFF 0xFF = 0xFFFFFFFF

/-- 40_codec.md R41. -/
def Obligations.UnpackResult : Prop :=
  (∀ (w : Word) (s : State),
    exec (.unpack w) s = .next (answered s 0 0
      [(w &&& 0xFF).setWidth 8, ((w >>> 8) &&& 0xFF).setWidth 8, ((w >>> 16) &&& 0xFF).setWidth 8,
       ((w >>> 24) &&& 0xFF).setWidth 8])) ∧
  (∀ w : Word, unpack w = (w.extractLsb' 0 8, w.extractLsb' 8 8, w.extractLsb' 16 8, w.extractLsb' 24 8)) ∧
  (∀ c : Command, c.hdr = 0x0006 → decode c = .ok (.unpack c.w)) ∧
  unpack 0x12345678 = (0x78, 0x56, 0x34, 0x12) ∧ unpack 0x80000000 = (0x00, 0x00, 0x00, 0x80)

/-- 40_codec.md R42; its second half, the converse, is the spec's own inference ("`[derived: from rule R40 and rule R41; …]`"). -/
def Obligations.CodecRoundTrip : Prop :=
  (∀ a b c d : Byte, unpack (pack a b c d) = (a, b, c, d)) ∧
  (∀ w : Word, pack (unpack w).1 (unpack w).2.1 (unpack w).2.2.1 (unpack w).2.2.2 = w)

/-- 40_codec.md R44: WORDS and SER byte by byte, and the rule's two examples. -/
def Obligations.WordsAndSerialiseLittleEndian : Prop :=
  (∀ (b : Block) (i : Nat) (h : i < 16),
    (words b)[i] = pack b[4 * i] b[4 * i + 1] b[4 * i + 2] b[4 * i + 3]) ∧
  (∀ h : DigestState, (ser h).length = 20 ∧
    ∀ i, i < 5 → (ser h)[4 * i]? = some (unpack (wordOf h i)).1 ∧ (ser h)[4 * i + 1]? = some (unpack (wordOf h i)).2.1 ∧
      (ser h)[4 * i + 2]? = some (unpack (wordOf h i)).2.2.1 ∧ (ser h)[4 * i + 3]? = some (unpack (wordOf h i)).2.2.2) ∧
  (words (Block.ofList ([0x61, 0x62, 0x63, 0x80] ++ List.replicate 52 0 ++ [0x18, 0, 0, 0, 0, 0, 0, 0])) =
    #v[0x80636261, 0, 0, 0, 0, 0, 0, 0, 0, 0, 0, 0, 0, 0, 0x00000018, 0]) ∧
  ser ⟨0xF708B28E, 0x7A985DE0, 0x8E4A049B, 0x87B0C698, 0xFC0B5AF1⟩ =
    [0x8e, 0xb2, 0x08, 0xf7, 0xe0, 0x5d, 0x98, 0x7a, 0x9b, 0x04, 0x4a, 0x8e, 0x98, 0xc6, 0xb0, 0x87, 0xf1, 0x5a, 0x0b, 0xfc]

/-- 20_memory.md R22: byte `i` of DATA is `cmd_data[8i+7:8i]`, byte `i` of RDATA is `rsp_data[8i+7:8i]`, and the bytes are
recovered from the bus. -/
def Obligations.BusByteNumbering : Prop :=
  (∀ (c : Command) (i : Nat) (h : i < 64), (cmdData c).extractLsb' (8 * i) 8 = c.data[i]) ∧
  (∀ (r : Response) (i : Nat) (h : i < 20), (rspData r).extractLsb' (8 * i) 8 = r.rdata[i]) ∧
  (∀ c : Command, dataOfBus (cmdData c) = c.data)

/-! ### Padding -/

/-- 41_padding.md R46: byte `k` of LE64 is `v[8k+7:8k]` (the spec's own inference from the rule's first sentence:
"`[derived: from 40_codec.md rule R41]`"), and the rule's examples. -/
def Obligations.LengthFieldLittleEndian : Prop :=
  (∀ v : Len, (le64 v).length = 8 ∧ ∀ k, k < 8 → (le64 v)[k]? = some (v.extractLsb' (8 * k) 8)) ∧
  le64 24 = [0x18, 0, 0, 0, 0, 0, 0, 0] ∧ le64 640 = [0x80, 0x02, 0, 0, 0, 0, 0, 0] ∧
  le64 (BitVec.ofNat 64 (2 ^ 32)) = [0, 0, 0, 0, 1, 0, 0, 0] ∧
  le64 0x0123456789ABCDE8 = [0xe8, 0xcd, 0xab, 0x89, 0x67, 0x45, 0x23, 0x01]

/-- 41_padding.md R45: the padded message, with `z` the non-negative residue of `55 - L` modulo 64. -/
def Obligations.PaddedMessage : Prop :=
  ∀ m : List Byte, 8 * m.length ≤ 2 ^ 64 - 1 →
    ∃ z : Nat, (z : Int) = (55 - (m.length : Int)) % 64 ∧ z ≤ 63 ∧
      (z = 0 ↔ m.length % 64 = 55) ∧ (56 ≤ m.length % 64 → z = 119 - m.length % 64) ∧
      pad m = m ++ [0x80] ++ List.replicate z 0 ++ le64 (BitVec.ofNat 64 (8 * m.length)) ∧
      (BitVec.ofNat 64 (8 * m.length)).toNat = 8 * m.length

/-- 41_padding.md R47 (a) to (e); (e), injectivity, is the spec's own inference ("`[derived: from rule R45]`"). That
(a) to (d) hold past the bit length 2^64 - 1 too, where R45 defines no PAD, is the model's choice of PAD there (assumption log 16). -/
def Obligations.PaddingProperties : Prop :=
  (∀ m : List Byte, (pad m).length % 64 = 0 ∧ 64 ≤ (pad m).length ∧
    (blocks (pad m)).length = (m.length + 9 + 63) / 64 ∧
    (m.length % 64 ≤ 55 → (blocks (pad m)).length = m.length / 64 + 1) ∧
    (56 ≤ m.length % 64 → (blocks (pad m)).length = m.length / 64 + 2) ∧
    (pad m).take m.length = m) ∧
  pad [] = 0x80 :: List.replicate 63 0 ∧
  (∀ m m' : List Byte, 8 * m.length ≤ 2 ^ 64 - 1 → 8 * m'.length ≤ 2 ^ 64 - 1 → pad m = pad m' → m = m')

/-- 41_padding.md R49, R66: the tail is one block for at most 55 bytes and two blocks for 56 to 63, and which bytes they hold.
The rule is the spec's own inference ("`[derived: rule R45 applied to the last partial block, …]`"). -/
def Obligations.TailBlocks : Prop :=
  ∀ (t : List Byte) (v : Len),
    (t.length ≤ 55 →
      tailBytes t v = t ++ [0x80] ++ List.replicate (55 - t.length) 0 ++ le64 v ∧
      (blocks (tailBytes t v)).map Vector.toList = [tailBytes t v]) ∧
    (56 ≤ t.length → t.length ≤ 63 →
      (blocks (tailBytes t v)).map Vector.toList =
        [t ++ [0x80] ++ List.replicate (63 - t.length) 0, List.replicate 56 0 ++ le64 v])

/-- 41_padding.md R51: the blocks of the padded message are the full blocks of the message and then the blocks of the tail. The
rule is the spec's own inference ("`[derived: from rule R45, rule R48 and rule R49; …]`"). Past the bit length 2^64 - 1, where R45
defines no PAD, the statement is about the model's choice of PAD, and its `8L` is the bit length modulo 2^64 (assumption log 16). -/
def Obligations.PaddingDecomposition : Prop :=
  ∀ m : List Byte,
    blocks (pad m) =
      blocks m ++ blocks (tailBytes (m.drop (64 * (m.length / 64))) (BitVec.ofNat 64 (8 * m.length))) ∧
    (blocks m).map Vector.toList = (List.range (m.length / 64)).map (fun k => (m.drop (64 * k)).take 64)

/-! ### The compression function -/

/-- 00_scope.md R6: bit `i` of `x` moves to bit `(i + n) mod 32`, for `0 < n < 32`. -/
def Obligations.RotationMovesBits : Prop :=
  ∀ (x : Word) (n i : Nat), 0 < n → n < 32 → i < 32 → (rol x n).getLsbD ((i + n) % 32) = x.getLsbD i

/-- 42_compression.md R54, bit by bit as the selections of the rule's table, and its whole-word check values. -/
def Obligations.MixingFunctions : Prop :=
  (∀ (x y z : Word) (i : Nat), i < 32 →
    (mixF 0 x y z).getLsbD i = xor (xor (x.getLsbD i) (y.getLsbD i)) (z.getLsbD i) ∧
    (mixF 1 x y z).getLsbD i = (if x.getLsbD i then y.getLsbD i else z.getLsbD i) ∧
    (mixF 2 x y z).getLsbD i = xor (x.getLsbD i || !y.getLsbD i) (z.getLsbD i) ∧
    (mixF 3 x y z).getLsbD i = (if z.getLsbD i then x.getLsbD i else y.getLsbD i) ∧
    (mixF 4 x y z).getLsbD i = xor (x.getLsbD i) (y.getLsbD i || !z.getLsbD i)) ∧
  mixF 0 0xAAAAAAAA 0xCCCCCCCC 0xF0F0F0F0 = 0x96969696 ∧
  mixF 1 0xAAAAAAAA 0xCCCCCCCC 0xF0F0F0F0 = 0xD8D8D8D8 ∧
  mixF 2 0xAAAAAAAA 0xCCCCCCCC 0xF0F0F0F0 = 0x4B4B4B4B ∧
  mixF 3 0xAAAAAAAA 0xCCCCCCCC 0xF0F0F0F0 = 0xACACACAC ∧
  mixF 4 0xAAAAAAAA 0xCCCCCCCC 0xF0F0F0F0 = 0x65656565

/-- 42_compression.md R55: the left line uses `F_r` and the right line `F_(4-r)`. -/
def Obligations.FunctionSelection : Prop :=
  ∀ r r' : Fin 5, r.val + r'.val = 4 → mixOf .left r = mixF r ∧ mixOf .right r = mixF r' ∧ mixOf .right r = mixOf .left r'

/-- 42_compression.md R56: the ten constants, and its self-check: the integer parts of 2^30 times square and cube roots. -/
def Obligations.AdditiveConstants : Prop :=
  ([0, 1, 2, 3, 4].map (kOf .left) = [0x00000000, 0x5A827999, 0x6ED9EBA1, 0x8F1BBCDC, 0xA953FD4E]) ∧
  ([0, 1, 2, 3, 4].map (kOf .right) = [0x50A28BE6, 0x5C4DD124, 0x6D703EF3, 0x7A6D76E9, 0x00000000]) ∧
  (∀ p ∈ [((1 : Fin 5), 2), (2, 3), (3, 5), (4, 7)],
    (kOf .left p.1).toNat ^ 2 ≤ p.2 * 2 ^ 60 ∧ p.2 * 2 ^ 60 < ((kOf .left p.1).toNat + 1) ^ 2) ∧
  (∀ p ∈ [((0 : Fin 5), 2), (1, 3), (2, 5), (3, 7)],
    (kOf .right p.1).toNat ^ 3 ≤ p.2 * 2 ^ 90 ∧ p.2 * 2 ^ 90 < ((kOf .right p.1).toNat + 1) ^ 3)

/-- 42_compression.md R57, by its self-checks, which fix both tables: every row is a permutation of 0 to 15; row 0 of the left
table is the identity and row 0 of the right table is `9j + 5 mod 16`; every later row is row 1 of the left table applied to the
row before. The values are those the spec supplies from general knowledge (assumption log 7). -/
def Obligations.SelectionTables : Prop :=
  ([selOf .left 1 0, selOf .left 1 1, selOf .left 1 2, selOf .left 1 3, selOf .left 1 4, selOf .left 1 5, selOf .left 1 6,
    selOf .left 1 7, selOf .left 1 8, selOf .left 1 9, selOf .left 1 10, selOf .left 1 11, selOf .left 1 12, selOf .left 1 13,
    selOf .left 1 14, selOf .left 1 15] = [7, 4, 13, 1, 10, 6, 15, 3, 12, 0, 9, 5, 2, 14, 11, 8]) ∧
  (∀ (side : Side) (r : Fin 5) (w : Fin 16), ∃ j, selOf side r j = w ∧ ∀ j', selOf side r j' = w → j' = j) ∧
  (∀ j : Fin 16, selOf .left 0 j = j ∧ (selOf .right 0 j).val = (9 * j.val + 5) % 16) ∧
  (∀ (side : Side) (r r' : Fin 5) (j : Fin 16), r'.val = r.val + 1 → selOf side r' j = selOf .left 1 (selOf side r j))

/-- 42_compression.md R58, by its self-checks: every amount is 5 to 15, the row sums, and one amount per round and message word
read through the selection tables, row by row of the rule's `base` table, which fixes both tables. The values are those the spec
supplies from general knowledge (assumption log 7). -/
def Obligations.RotationTables : Prop :=
  let base : List (List Nat) :=
    [[11, 14, 15, 12, 5, 8, 7, 9, 11, 13, 14, 15, 6, 7, 9, 8], [12, 13, 11, 15, 6, 9, 9, 7, 12, 15, 11, 13, 7, 8, 7, 7],
     [13, 15, 14, 11, 7, 7, 6, 8, 13, 14, 13, 12, 5, 5, 6, 9], [14, 11, 12, 14, 8, 6, 5, 5, 15, 12, 15, 14, 9, 9, 8, 6],
     [15, 12, 13, 13, 9, 5, 8, 6, 14, 11, 12, 11, 8, 6, 5, 5]]
  (∀ (side : Side) (r : Fin 5) (j : Fin 16), 5 ≤ rotOf side r j ∧ rotOf side r j ≤ 15 ∧
    (base.getD r.val []).getD (selOf side r j).val 0 = rotOf side r j) ∧
  (∀ side : Side, ∀ p ∈ [((0 : Fin 5), 164), (1, 162), (2, 158), (3, 163), (4, 153)],
    (stepIndices.map (rotOf side p.1)).sum = p.2)

/-- 42_compression.md R59: the five registers after a step, and its worked example. -/
def Obligations.StepOfLine : Prop :=
  (∀ (side : Side) (x : Vector Word 16) (r : Fin 5) (j : Fin 16) (g : Regs),
    (stepRegs side x r j g).a = g.e ∧ (stepRegs side x r j g).c = g.b ∧ (stepRegs side x r j g).e = g.d ∧
    (stepRegs side x r j g).d = g.c.rotateLeft 10 ∧
    (stepRegs side x r j g).b =
      (g.a + mixOf side r g.b g.c g.d + x[selOf side r j] + kOf side r).rotateLeft (rotOf side r j) + g.e) ∧
  stepRegs .left (words (Block.ofList [0x80])) 0 0 ⟨0x67452301, 0xEFCDAB89, 0x98BADCFE, 0x10325476, 0xC3D2E1F0⟩ =
    ⟨0xC3D2E1F0, 0x1606F864, 0xEFCDAB89, 0xEB73FA62, 0x10325476⟩

/-- 42_compression.md R53, R60: a line starts from the state words in order and runs its 80 steps, the `k`-th being step
`k mod 16` of round `k div 16`. -/
def Obligations.LineRunsEightySteps : Prop :=
  ∀ (side : Side) (h : DigestState) (x : Vector Word 16),
    line side h x =
      (List.range 80).foldl (fun g k => stepRegs side x (Fin.ofNat 5 (k / 16)) (Fin.ofNat 16 (k % 16)) g)
        ⟨h.h0, h.h1, h.h2, h.h3, h.h4⟩

/-- 42_compression.md R61: under every schedule that gives each line its 80 steps, in whatever interleaving, the two lines end
as LINE_L and LINE_R. The rule is the spec's own inference ("`[derived: LINE_L and LINE_R are functions of (h, X) alone]`"). -/
def Obligations.LineSchedulesAgree : Prop :=
  ∀ (h : DigestState) (x : Vector Word 16) (schedule : List Side),
    schedule.count .left = 80 → schedule.count .right = 80 →
      (runSchedule h x schedule).1.1 = line .left h x ∧ (runSchedule h x schedule).2.1 = line .right h x

/-- 42_compression.md R62, R63: the combination of the two lines, and the check value of CF. -/
def Obligations.CompressionFunction : Prop :=
  (∀ (h : DigestState) (b : Block),
    let l := line .left h (words b)
    let r := line .right h (words b)
    (cf h b).h0 = h.h1 + l.c + r.d ∧ (cf h b).h1 = h.h2 + l.d + r.e ∧ (cf h b).h2 = h.h3 + l.e + r.a ∧
      (cf h b).h3 = h.h4 + l.a + r.b ∧ (cf h b).h4 = h.h0 + l.b + r.c) ∧
  cf ⟨0x67452301, 0xEFCDAB89, 0x98BADCFE, 0x10325476, 0xC3D2E1F0⟩ (Block.ofList [0x80]) =
    ⟨0xA585119C, 0x54FCE9C5, 0x97082861, 0x48F5E87E, 0x318D25B2⟩

/-! ### The commands of a message -/

/-- 43_digest.md R70: the initial value and its self-check. -/
def Obligations.InitialValue : Prop :=
  DigestState.iv = ⟨0x67452301, 0xEFCDAB89, 0x98BADCFE, 0x10325476, 0xC3D2E1F0⟩ ∧
  ser DigestState.iv = [0x01, 0x23, 0x45, 0x67, 0x89, 0xab, 0xcd, 0xef, 0xfe, 0xdc, 0xba, 0x98, 0x76, 0x54, 0x32, 0x10,
    0xf0, 0xe1, 0xd2, 0xc3]

/-- 43_digest.md R73. -/
def Obligations.StatReportsOnly : Prop :=
  (∀ s : State, exec .stat s = .next (answered s 0 0 [])) ∧
  (∀ c : Command, c.hdr = 0x0000 → decode c = .ok .stat) ∧
  header false .init 0 = 0x01 ∧ header true .error 0 = 0x39

/-- 43_digest.md R71: INIT in every phase; it leaves the reset registers, changes none in INIT, is the only command that leaves
ERROR, and a READ after it is rejected. -/
def Obligations.InitStartsMessage : Prop :=
  (∀ s : State, exec .init s = .next (after s ⟨0x67452301, 0xEFCDAB89, 0x98BADCFE, 0x10325476, 0xC3D2E1F0⟩ 0 .init false 0 0 [])) ∧
  (∀ c : Command, c.hdr = 0x0001 → decode c = .ok .init) ∧
  (∀ s t : State, exec .init s = .next t →
    t.registers = State.reset.registers ∧ (StateInv s → s.phase = .init → t.registers = s.registers) ∧
    exec .read t = .next (answered t 2 0 [])) ∧
  (∀ (i : Instr) (s t : State), s.phase = .error → exec i s = .next t → t.phase ≠ .error → i = .init) ∧
  header false .init 0 = 0x01

/-- 42_compression.md R65: one block absorbed in an open message, refused with INPUT_TOO_LARGE when the count would not fit,
refused with PROTOCOL in FINAL and ERROR, and the rule's example: the 64 ASCII digits 1, 2, …, 9, 0, 1, …, 4. -/
def Obligations.BlockResult : Prop :=
  (∀ (data : Block) (s : State), Open s → s.len.toNat + 512 ≤ 2 ^ 64 - 1 →
    exec (.block data) s = .next (after s (cf s.h data) (s.len + 512) .proc s.err 0 0 []) ∧
    (s.len + 512).toNat = s.len.toNat + 512) ∧
  (∀ (data : Block) (s : State), Open s → s.len.toNat + 512 > 2 ^ 64 - 1 →
    exec (.block data) s = .next (after s s.h s.len .error true 1 0 [])) ∧
  (∀ (data : Block) (s : State), ¬ Open s → exec (.block data) s = .next (answered s 2 0 [])) ∧
  (∀ s : State, StateInv s → Open s → (s.len.toNat + 512 > 2 ^ 64 - 1 ↔ s.len.toNat = 2 ^ 64 - 512)) ∧
  (∀ c : Command, c.hdr = 0x0002 → decode c = .ok (.block c.data)) ∧
  exec (.block (Block.ofList ((List.range 64).map fun k => BitVec.ofNat 8 (48 + (k + 1) % 10)))) State.reset =
    .next { h := ⟨0xE2C371C4, 0x38691CD2, 0xCEA4F8B9, 0xAB63E47F, 0xBC87ECA9⟩, len := 512, phase := .proc, err := false,
            inputs := [], responses := [⟨0x09, 0, results []⟩] }

/-- 41_padding.md R50: the tail padded and absorbed in an open message, refused with PROTOCOL in FINAL and ERROR; the example. The
first clause is for the states that meet the invariant of R19, in which the count does not wrap (`LastCountFits`). -/
def Obligations.LastResult : Prop :=
  (∀ (t : List Byte) (s : State), t.length ≤ 63 → StateInv s → Open s →
    exec (.last t) s = .next (after s ((blocks (tailBytes t (s.len + BitVec.ofNat 64 (8 * t.length)))).foldl cf s.h)
      (s.len + BitVec.ofNat 64 (8 * t.length)) .final s.err 0 0 [])) ∧
  (∀ (t : List Byte) (s : State), ¬ Open s → exec (.last t) s = .next (answered s 2 0 [])) ∧
  (∀ (c : Command) (n : Nat), n ≤ 63 → c.hdr = BitVec.ofNat 16 (16 * n + 3) → decode c = .ok (.last (c.data.toList.take n))) ∧
  exec (.last [0x61, 0x62, 0x63]) State.reset =
    .next { h := ⟨0xF708B28E, 0x7A985DE0, 0x8E4A049B, 0x87B0C698, 0xFC0B5AF1⟩, len := 24, phase := .final, err := false,
            inputs := [], responses := [⟨0x11, 0, results []⟩] }

/-- 41_padding.md R50, its corner case: while a message is open, `LEN + 8N` is at most 2^64 - 8 and the 64-bit sum does not wrap, so
LAST never refuses a message for its length (the spec's own inference, "`[derived: from 10_state.md rule R19]`"). -/
def Obligations.LastCountFits : Prop :=
  ∀ (t : List Byte) (s u : State), t.length ≤ 63 → StateInv s → Open s → exec (.last t) s = .next u →
    u.len.toNat = s.len.toNat + 8 * t.length ∧ u.len.toNat ≤ 2 ^ 64 - 8 ∧ u.err = false ∧ u.phase = .final

/-- 43_digest.md R72: the digest in FINAL, as often as it is read; a rejection with zero results in every other phase. -/
def Obligations.ReadResult : Prop :=
  (∀ s : State, s.phase = .final → exec .read s = .next (answered s 0 0 (ser s.h))) ∧
  (∀ s : State, s.phase ≠ .final → exec .read s = .next (answered s 2 0 [])) ∧
  (∀ s t u : State, exec .read s = .next t → exec .read t = .next u →
    u.registers = s.registers ∧ ∃ r, t.responses = s.responses ++ [r] ∧ u.responses = s.responses ++ [r, r]) ∧
  (∀ c : Command, c.hdr = 0x0004 → decode c = .ok .read) ∧
  (∀ t u : State, exec (.last [0x61, 0x62, 0x63]) State.reset = .next t → exec .read t = .next u →
    u.responses = t.responses ++ [⟨0x11, 0, results
      [0x8e, 0xb2, 0x08, 0xf7, 0xe0, 0x5d, 0x98, 0x7a, 0x9b, 0x04, 0x4a, 0x8e, 0x98, 0xc6, 0xb0, 0x87, 0xf1, 0x5a, 0x0b, 0xfc]⟩])

/-- 43_digest.md R76: the next phase and the cause of every command in every phase, of an illegal header, and of reset. -/
def Obligations.PhaseTransitions : Prop :=
  (∀ (i : Instr) (s : State), StateInv s → i.wellFormed = true →
    ∃ t r, exec i s = .next t ∧ t.responses = s.responses ++ [r] ∧
      t.phase = (transition i s.phase (decide (s.len.toNat = 2 ^ 64 - 512))).1 ∧ t.err = decide (t.phase = .error) ∧
      r.rhdr = header t.err t.phase (transition i s.phase (decide (s.len.toNat = 2 ^ 64 - 512))).2) ∧
  (∀ s : State, StateInv s → s.phase = .init → s.len.toNat ≠ 2 ^ 64 - 512) ∧
  (∀ s : State, StateInv s → s.phase = .proc → s.len.toNat ≠ 2 ^ 64 - 512 → s.len.toNat ≤ 2 ^ 64 - 1024) ∧
  (∀ (s : State) (c : Command) (rest : List HostEvent), s.inputs = .command c :: rest → BadHeader c →
    ∃ t r, step s = .next t ∧ t.phase = s.phase ∧ t.responses = s.responses ++ [r] ∧ r.rhdr = header t.err t.phase 3) ∧
  (∀ (s : State) (rest : List HostEvent), s.inputs = .reset :: rest → ∃ t, step s = .next t ∧ t.phase = .init)

/-! ### Rejections -/

/-- 60_exceptions.md R82: every command rejected with PROTOCOL changes no register and answers zero results; a digest survives a
stray BLOCK or LAST in FINAL and can still be read. -/
def Obligations.ProtocolRejections : Prop :=
  (∀ (s : State), s.phase = .final ∨ s.phase = .error →
    (∀ data, exec (.block data) s = .next (answered s 2 0 [])) ∧ (∀ t, exec (.last t) s = .next (answered s 2 0 []))) ∧
  (∀ s : State, s.phase = .init ∨ s.phase = .proc ∨ s.phase = .error → exec .read s = .next (answered s 2 0 [])) ∧
  (∀ (s t : State) (data : Block) (tail : List Byte), s.phase = .final →
    exec (.block data) s = .next t ∨ exec (.last tail) s = .next t →
      exec .read t = .next (answered t 0 0 (ser s.h)))

/-- 60_exceptions.md R81: the BLOCK that would overflow the count; when that happens in states that meet the invariant; and that
every later BLOCK, LAST and READ is rejected with PROTOCOL until INIT or reset. -/
def Obligations.OverflowRejected : Prop :=
  (∀ (data : Block) (s : State), Open s → s.len.toNat + 512 > 2 ^ 64 - 1 →
    exec (.block data) s = .next (after s s.h s.len .error true 1 0 []) ∧ header true .error 1 = 0x3A) ∧
  (∀ s : State, StateInv s → Open s → (s.len.toNat + 512 > 2 ^ 64 - 1 ↔ s.len.toNat = 2 ^ 64 - 512) ∧
    (s.len.toNat = 2 ^ 64 - 512 ↔ s.len.toNat / 512 + 1 = 2 ^ 55)) ∧
  (∀ (s : State) (cs : List Command), s.phase = .error → s.inputs = cs.map .command → (∀ c ∈ cs, decode c ≠ .ok .init) →
    ∃ t rs, Host.Core.run Sys2Proof.core cs.length s = .next t ∧ t.registers = s.registers ∧
      t.responses = s.responses ++ rs ∧ rs.length = cs.length ∧
      ∀ (k : Nat) (c : Command) (r : Response), cs[k]? = some c → rs[k]? = some r →
        (decode c = .ok .read ∨ (∃ d, decode c = .ok (.block d)) ∨ ∃ l, decode c = .ok (.last l)) →
          r = ⟨header s.err .error 2, 0, results []⟩)

/-- 60_exceptions.md R84: the response reports the first cause that applies, in the order ILLEGAL, PROTOCOL, INPUT_TOO_LARGE. -/
def Obligations.CausePriority : Prop :=
  ∀ (s : State) (c : Command) (rest : List HostEvent), s.inputs = .command c :: rest →
    ∃ t r, step s = .next t ∧ t.responses = s.responses ++ [r] ∧ r.rhdr = header t.err t.phase (causeOf c s)

/-- 60_exceptions.md R85: a rejected command leaves H and LEN alone, and every register but for INPUT_TOO_LARGE, which sets ERR
and PHASE; its results are zero. -/
def Obligations.RejectionsArePrecise : Prop :=
  ∀ (s : State) (c : Command) (rest : List HostEvent), s.inputs = .command c :: rest → causeOf c s ≠ 0 →
    ∃ t, step s = .next t ∧ t.inputs = rest ∧
      t.responses = s.responses ++ [⟨header t.err t.phase (causeOf c s), 0, results []⟩] ∧
      (header t.err t.phase (causeOf c s)).getLsbD 0 = false ∧ t.h = s.h ∧ t.len = s.len ∧
      (causeOf c s = 1 → t.err = true ∧ t.phase = .error) ∧ (causeOf c s ≠ 1 → t.err = s.err ∧ t.phase = s.phase)

/-- 30_encoding.md R34: every command, accepted or rejected, has exactly one response, and its fields are as the rule says. -/
def Obligations.ResponseFields : Prop :=
  (∀ (s : State) (c : Command) (rest : List HostEvent), s.inputs = .command c :: rest →
    ∃ t r, step s = .next t ∧ t.responses = s.responses ++ [r] ∧
      r.rhdr.toNat / 64 = 0 ∧ r.rhdr.toNat / 32 % 2 = t.err.toNat ∧ r.rhdr.toNat / 8 % 4 = phaseNumber t.phase ∧
      r.rhdr.toNat / 2 % 4 = causeOf c s ∧ (r.rhdr.toNat % 2 = 1 ↔ causeOf c s = 0) ∧
      (∀ b0 b1 b2 b3, decode c = .ok (.pack b0 b1 b2 b3) → r.rw = pack b0 b1 b2 b3) ∧
      ((∀ b0 b1 b2 b3, decode c ≠ .ok (.pack b0 b1 b2 b3)) → r.rw = 0) ∧
      (decode c = .ok .read → s.phase = .final → r.rdata = results (ser s.h)) ∧
      (∀ w, decode c = .ok (.unpack w) → r.rdata = results [(unpack w).1, (unpack w).2.1, (unpack w).2.2.1, (unpack w).2.2.2]) ∧
      ((decode c ≠ .ok .read ∨ s.phase ≠ .final) → (∀ w, decode c ≠ .ok (.unpack w)) → r.rdata = results [])) ∧
  header false .final 0 = 0x11 ∧ header false .init 0 = 0x01 ∧ header false .proc 0 = 0x09 ∧ header false .init 2 = 0x04 ∧
  header true .error 1 = 0x3A ∧ header true .error 2 = 0x3C ∧ header false .final 3 = 0x16

/-- 10_state.md R15: STATUS is PHASE in bits 1:0 and ERR in bit 2, and is bits 5:3 of every response header. -/
def Obligations.StatusRegister : Prop :=
  (∀ s : State, (status s).toNat = phaseNumber s.phase + 4 * s.err.toNat) ∧
  (∀ (s : State) (c : Command) (rest : List HostEvent), s.inputs = .command c :: rest →
    ∃ t r, step s = .next t ∧ t.responses = s.responses ++ [r] ∧ r.rhdr.extractLsb' 3 3 = status t) ∧
  status State.reset = 0

/-! ### Reset, the invariant, and rules of the whole machine -/

/-- 70_reset_and_hazards.md R100: the state after reset, which executes nothing until a command comes. -/
def Obligations.ResetState : Prop :=
  State.reset.h = ⟨0x67452301, 0xEFCDAB89, 0x98BADCFE, 0x10325476, 0xC3D2E1F0⟩ ∧ State.reset.len = 0 ∧
  State.reset.phase = .init ∧ State.reset.err = false ∧
  (∀ s t : State, exec .init s = .next t → t.registers = State.reset.registers) ∧
  ∀ k, Host.Core.run Sys2Proof.core k State.reset = .next State.reset

/-- 70_reset_and_hazards.md R101: reset, between commands or during one, sets the reset registers whatever they were and delivers
no response; an abandoned command leaves no trace. -/
def Obligations.ResetEvent : Prop :=
  ∀ (s : State) (rest : List HostEvent) (c : Command), s.inputs = .reset :: rest ∨ s.inputs = .resetDuring c :: rest →
    step s = .next { State.reset with inputs := rest, responses := s.responses }

/-- The reset state meets the invariant of 10_state.md R19. -/
def Obligations.ResetMeetsInvariant : Prop := StateInv State.reset

/-- Every step keeps the invariant of 10_state.md R19. The rule is the spec's own inference ("`[derived: from 43_digest.md rule
R71, 42_compression.md rule R65, …, by induction on the command sequence]`"). -/
def Obligations.StepKeepsInvariant : Prop :=
  ∀ s t : State, StateInv s → step s = .next t → StateInv t

/-- 10_state.md R19: every state reachable from reset, by whatever commands and resets, meets the invariant (the spec's own
inference, as above). -/
def Obligations.ReachableStatesMeetInvariant : Prop :=
  ∀ s : State, Reachable s → StateInv s

/-- 10_state.md R14: only a BLOCK that overflows the count sets ERR, and only INIT and reset clear it. -/
def Obligations.ErrorFlagChanges : Prop :=
  ∀ s t : State, step s = .next t →
    (s.err = false → t.err = true →
      ∃ c d rest, s.inputs = .command c :: rest ∧ decode c = .ok (.block d) ∧ Open s ∧ s.len.toNat + 512 > 2 ^ 64 - 1) ∧
    (s.err = true → t.err = false →
      ∃ e rest, s.inputs = e :: rest ∧ (e = .reset ∨ (∃ c, e = .resetDuring c) ∨ ∃ c, e = .command c ∧ decode c = .ok .init))

/-- 10_state.md R11, 42_compression.md R66: who writes the digest state, and what: reset and INIT the initial value; a BLOCK that is
accepted, the message open and the count fitting, the compression of its block; a LAST that is accepted, the compressions of the
blocks of its own TAIL in order, one for at most 55 bytes and two for 56 to 63; nothing else changes it. -/
def Obligations.DigestStateWriters : Prop :=
  ∀ s t : State, step s = .next t → t.h ≠ s.h →
    ∃ e rest, s.inputs = e :: rest ∧
      ((e = .reset ∨ (∃ c, e = .resetDuring c) ∨ ∃ c, e = .command c ∧ decode c = .ok .init) ∧ t.h = DigestState.iv ∨
       (∃ c d, e = .command c ∧ decode c = .ok (.block d) ∧ Open s ∧ s.len.toNat + 512 ≤ 2 ^ 64 - 1 ∧ t.h = cf s.h d) ∨
       (∃ c l, e = .command c ∧ decode c = .ok (.last l) ∧ Open s ∧ l.length ≤ 63 ∧
          t.h = absorb s.h (blocks (tailBytes l (s.bitlen l.length))) ∧
          (blocks (tailBytes l (s.bitlen l.length))).length = if l.length ≤ 55 then 1 else 2))

/-- 60_exceptions.md R88: nothing stops the machine; every step, and every command in every state, answers a next state. -/
def Obligations.NothingStops : Prop :=
  (∀ s : State, ∃ t, step s = .next t) ∧ (∀ (i : Instr) (s : State), ∃ t, exec i s = .next t)

/-- 60_exceptions.md R94: an engine that receives no command keeps its state for any number of steps. -/
def Obligations.IdleEngineKeepsState : Prop :=
  ∀ (s : State) (k : Nat), s.inputs = [] → Host.Core.run Sys2Proof.core k s = .next s

/-- 20_memory.md R26: commands are taken in the order presented, each step takes one, and the responses come back in that order,
one per command. -/
def Obligations.OneResponsePerCommandInOrder : Prop :=
  ∀ (s : State) (cs : List Command) (rest : List HostEvent), s.inputs = cs.map .command ++ rest →
    ∃ t rs, Host.Core.run Sys2Proof.core cs.length s = .next t ∧ t.inputs = rest ∧
      t.responses = s.responses ++ rs ∧ rs.length = cs.length

/-- 10_state.md R10, 43_digest.md R78 (a): the four registers are all the state there is: two engines with the same registers,
given the same events, end with the same registers and have delivered the same further responses. -/
def Obligations.RegistersDetermineBehaviour : Prop :=
  ∀ (s s' : State) (k : Nat), s.registers = s'.registers → s.inputs = s'.inputs →
    ∃ t t' rs, Host.Core.run Sys2Proof.core k s = .next t ∧ Host.Core.run Sys2Proof.core k s' = .next t' ∧
      t.registers = t'.registers ∧ t.inputs = t'.inputs ∧ t.responses = s.responses ++ rs ∧ t'.responses = s'.responses ++ rs

/-- 43_digest.md R72, 60_exceptions.md R93: H is not shown while a message is open or broken. Two engines outside FINAL that differ
in H, and in LEN where neither count is at its limit, answer every command alike. -/
def Obligations.PartialResultHidden : Prop :=
  ∀ (s s' : State) (c : Command) (rest : List HostEvent),
    s.inputs = .command c :: rest → s'.inputs = .command c :: rest → s.phase = s'.phase → s.err = s'.err →
    s.responses = s'.responses → s.phase ≠ .final →
    (s.len.toNat + 512 > 2 ^ 64 - 1 ↔ s'.len.toNat + 512 > 2 ^ 64 - 1) →
      ∃ t t', step s = .next t ∧ step s' = .next t' ∧ t.responses = t'.responses ∧ t.phase = t'.phase ∧ t.err = t'.err

/-- 60_exceptions.md R92: a step of one engine leaves every other engine as it was, and steps of two engines commute. That several
engines are a list of which one takes a step at a time is the model's choice (assumption log 14). -/
def Obligations.EnginesAreIndependent : Prop :=
  (∀ (k j : Nat) (es fs : List State), k ≠ j → stepEngine k es = .next fs → fs[j]? = es[j]?) ∧
  (∀ (k j : Nat) (es fs gs : List State), k ≠ j → stepEngine k es = .next fs → stepEngine j fs = .next gs →
    ∃ fs', stepEngine j es = .next fs' ∧ stepEngine k fs' = .next gs)

/-! ### The engine computes the digest -/

/-- 30_encoding.md R38: the expansion of DIGEST has q + 3 commands, INIT, the q full blocks in order, the last fragment, READ; every
one is well formed, and the line assembles to their encodings. (Past 2^61 - 1 bytes, where R38 stops: assumption log 16.) -/
def Obligations.DigestExpansion : Prop :=
  ∀ m : List Byte,
    expandDigest m = .init :: ((blocks m).map .block ++ [.last (m.drop (64 * (m.length / 64))), .read]) ∧
    (expandDigest m).length = m.length / 64 + 3 ∧
    (m.drop (64 * (m.length / 64))).length = m.length % 64 ∧
    (∀ i ∈ expandDigest m, i.wellFormed = true) ∧
    (assembleLine (.digest m)).map decode = (expandDigest m).map .ok

/-- 43_digest.md R75: the digest as a function of the message, twenty bytes long, with the six known answers of
95_test_vectors.md section 1. R75 defines DIGEST for at most 2^61 - 1 bytes; past that length, where the spec gives no digest, the
two general clauses are about the value the model chose (assumption log 16). -/
def Obligations.DigestOfMessage : Prop :=
  (∀ m : List Byte, digest m =
    ser ((blocks (pad m)).foldl cf ⟨0x67452301, 0xEFCDAB89, 0x98BADCFE, 0x10325476, 0xC3D2E1F0⟩)) ∧
  (∀ m : List Byte, (digest m).length = 20) ∧
  digest [] =
    [0x9c, 0x11, 0x85, 0xa5, 0xc5, 0xe9, 0xfc, 0x54, 0x61, 0x28, 0x08, 0x97, 0x7e, 0xe8, 0xf5, 0x48, 0xb2, 0x25, 0x8d, 0x31] ∧
  digest (asciiBytes "a".toList) =
    [0x0b, 0xdc, 0x9d, 0x2d, 0x25, 0x6b, 0x3e, 0xe9, 0xda, 0xae, 0x34, 0x7b, 0xe6, 0xf4, 0xdc, 0x83, 0x5a, 0x46, 0x7f, 0xfe] ∧
  digest (asciiBytes "abc".toList) =
    [0x8e, 0xb2, 0x08, 0xf7, 0xe0, 0x5d, 0x98, 0x7a, 0x9b, 0x04, 0x4a, 0x8e, 0x98, 0xc6, 0xb0, 0x87, 0xf1, 0x5a, 0x0b, 0xfc] ∧
  digest (asciiBytes "message digest".toList) =
    [0x5d, 0x06, 0x89, 0xef, 0x49, 0xd2, 0xfa, 0xe5, 0x72, 0xb8, 0x81, 0xb1, 0x23, 0xa8, 0x5f, 0xfa, 0x21, 0x59, 0x5f, 0x36] ∧
  digest (asciiBytes "abcdefghijklmnopqrstuvwxyz".toList) =
    [0xf7, 0x1c, 0x27, 0x10, 0x9c, 0x69, 0x2c, 0x1b, 0x56, 0xbb, 0xdc, 0xeb, 0x5b, 0x9d, 0x28, 0x65, 0xb3, 0x70, 0x8d, 0xbc] ∧
  digest (asciiBytes "12345678901234567890123456789012345678901234567890123456789012345678901234567890".toList) =
    [0x9b, 0x75, 0x2e, 0x45, 0x57, 0x3d, 0x4b, 0x39, 0xf4, 0xdb, 0xd3, 0x32, 0x3c, 0xab, 0x82, 0xbf, 0x63, 0x32, 0x6b, 0xfb]

/-- 41_padding.md R52: a message takes at most 2^55 - 1 BLOCK commands; all of them are accepted; after 2^55 - 1 of them another BLOCK
is refused with INPUT_TOO_LARGE, and a LAST with 63 bytes ends the message at 2^64 - 8 bits. -/
def Obligations.MaximumMessage : Prop :=
  ∀ (s : State) (cs : List Command), s.phase = .init → s.len = 0 → s.err = false → s.inputs = cs.map .command →
    (∀ c ∈ cs, ∃ d, decode c = .ok (.block d)) → cs.length ≤ 2 ^ 55 - 1 →
    ∃ t rs, Host.Core.run Sys2Proof.core cs.length s = .next t ∧ Open t ∧ t.err = false ∧ t.len.toNat = 512 * cs.length ∧
      t.responses = s.responses ++ rs ∧ rs.length = cs.length ∧ (∀ r ∈ rs, r = ⟨0x09, 0, results []⟩) ∧
      (cs.length = 2 ^ 55 - 1 →
        (∀ d, exec (.block d) t = .next (after t t.h t.len .error true 1 0 [])) ∧
        (∀ l, l.length = 63 → ∃ u, exec (.last l) t = .next u ∧ u.phase = .final ∧ u.len.toNat = 2 ^ 64 - 8))

/-- 43_digest.md R77, first sentence, with 43_digest.md R75: from any state, the expansion of DIGEST is accepted at every command,
ends in FINAL with `LEN = 8L`, and its READ returns the digest. The sentence is the spec's own inference ("`[derived: INIT sets
H = IV (rule R71); …]`"). -/
def Obligations.EngineComputesDigest : Prop :=
  ∀ (m : List Byte) (s : State) (rest : List HostEvent), m.length ≤ 2 ^ 61 - 1 →
    s.inputs = (assembleLine (.digest m)).map .command ++ rest →
    ∃ t rs, Host.Core.run Sys2Proof.core (m.length / 64 + 3) s = .next t ∧
      t.phase = .final ∧ t.err = false ∧ t.len.toNat = 8 * m.length ∧ t.inputs = rest ∧
      t.responses = s.responses ++ rs ++ [⟨0x11, 0, results (ser ((blocks (pad m)).foldl cf
        ⟨0x67452301, 0xEFCDAB89, 0x98BADCFE, 0x10325476, 0xC3D2E1F0⟩))⟩] ∧
      rs.length = m.length / 64 + 2 ∧ ∀ r ∈ rs, r.rhdr.getLsbD 0 = true

/-- 43_digest.md R77, third sentence, and 40_codec.md R43: a command that belongs to no message (STAT, READ, PACK, UNPACK, an illegal
header, or a BLOCK or LAST rejected with PROTOCOL) inserted anywhere in a sequence of commands changes neither the registers at the
end nor any other response. (A BLOCK rejected with INPUT_TOO_LARGE ends the message, so it is not among them: assumption log 10.) -/
def Obligations.PassiveCommandsInvisible : Prop :=
  ∀ (s t : State) (pre post : List Command) (c : Command),
    s.inputs = pre.map .command ++ .command c :: post.map .command →
    Host.Core.run Sys2Proof.core pre.length s = .next t → Passive c t →
    ∃ u u' rs r rs', Host.Core.run Sys2Proof.core (pre.length + 1 + post.length) s = .next u ∧
      Host.Core.run Sys2Proof.core (pre.length + post.length) { s with inputs := pre.map .command ++ post.map .command } = .next u' ∧
      u.registers = u'.registers ∧ u.responses = s.responses ++ rs ++ [r] ++ rs' ∧ u'.responses = s.responses ++ rs ++ rs' ∧
      rs.length = pre.length ∧ rs'.length = post.length
end

