-- ==== Sys2Proof/Laws/State.lean ====
section
/-! SUPPORT. What each update of `State` leaves in each field, by definition: one lemma per field per update, so that no proof
unfolds a record update. The proofs are written `(rfl)` so that simp applies the lemmas as equations: as definitional unfoldings
they would have the kernel compare a compression with the old digest state. -/

namespace Sys2Proof.Machine.State

/-! The fields of a written-out state. `absorbBlock` and `absorbTail` go through these: a bare `rfl` would have the kernel
compare the compression with the old digest state. -/

variable (h : DigestState) (l : Len) (p : Phase) (e : Bool) (is : List HostEvent) (rs : List Response)

theorem mk_h : (State.mk h l p e is rs).h = h := rfl
theorem mk_len : (State.mk h l p e is rs).len = l := rfl
theorem mk_phase : (State.mk h l p e is rs).phase = p := rfl
theorem mk_err : (State.mk h l p e is rs).err = e := rfl
theorem mk_inputs : (State.mk h l p e is rs).inputs = is := rfl
theorem mk_responses : (State.mk h l p e is rs).responses = rs := rfl

@[simp] theorem respond_h (s : State) (cause : Option Cause) (rw : Word) (rdata : List Byte) : (s.respond cause rw rdata).h = s.h := (rfl)
@[simp] theorem respond_len (s : State) (cause : Option Cause) (rw : Word) (rdata : List Byte) : (s.respond cause rw rdata).len = s.len := (rfl)
@[simp] theorem respond_phase (s : State) (cause : Option Cause) (rw : Word) (rdata : List Byte) : (s.respond cause rw rdata).phase = s.phase := (rfl)
@[simp] theorem respond_err (s : State) (cause : Option Cause) (rw : Word) (rdata : List Byte) : (s.respond cause rw rdata).err = s.err := (rfl)
@[simp] theorem respond_inputs (s : State) (cause : Option Cause) (rw : Word) (rdata : List Byte) : (s.respond cause rw rdata).inputs = s.inputs := (rfl)
@[simp] theorem respond_responses (s : State) (cause : Option Cause) (rw : Word) (rdata : List Byte) : (s.respond cause rw rdata).responses = s.responses ++ [⟨Machine.rhdr cause s, rw, padTo 20 rdata⟩] := (rfl)

@[simp] theorem accept_h (s : State) : (s.accept).h = s.h := (rfl)
@[simp] theorem accept_len (s : State) : (s.accept).len = s.len := (rfl)
@[simp] theorem accept_phase (s : State) : (s.accept).phase = s.phase := (rfl)
@[simp] theorem accept_err (s : State) : (s.accept).err = s.err := (rfl)
@[simp] theorem accept_inputs (s : State) : (s.accept).inputs = s.inputs := (rfl)
@[simp] theorem accept_responses (s : State) : (s.accept).responses = s.responses ++ [⟨Machine.rhdr none s, 0, padTo 20 []⟩] := (rfl)

@[simp] theorem acceptWord_h (s : State) (rw : Word) : (s.acceptWord rw).h = s.h := (rfl)
@[simp] theorem acceptWord_len (s : State) (rw : Word) : (s.acceptWord rw).len = s.len := (rfl)
@[simp] theorem acceptWord_phase (s : State) (rw : Word) : (s.acceptWord rw).phase = s.phase := (rfl)
@[simp] theorem acceptWord_err (s : State) (rw : Word) : (s.acceptWord rw).err = s.err := (rfl)
@[simp] theorem acceptWord_inputs (s : State) (rw : Word) : (s.acceptWord rw).inputs = s.inputs := (rfl)
@[simp] theorem acceptWord_responses (s : State) (rw : Word) : (s.acceptWord rw).responses = s.responses ++ [⟨Machine.rhdr none s, rw, padTo 20 []⟩] := (rfl)

@[simp] theorem acceptBytes_h (s : State) (rdata : List Byte) : (s.acceptBytes rdata).h = s.h := (rfl)
@[simp] theorem acceptBytes_len (s : State) (rdata : List Byte) : (s.acceptBytes rdata).len = s.len := (rfl)
@[simp] theorem acceptBytes_phase (s : State) (rdata : List Byte) : (s.acceptBytes rdata).phase = s.phase := (rfl)
@[simp] theorem acceptBytes_err (s : State) (rdata : List Byte) : (s.acceptBytes rdata).err = s.err := (rfl)
@[simp] theorem acceptBytes_inputs (s : State) (rdata : List Byte) : (s.acceptBytes rdata).inputs = s.inputs := (rfl)
@[simp] theorem acceptBytes_responses (s : State) (rdata : List Byte) : (s.acceptBytes rdata).responses = s.responses ++ [⟨Machine.rhdr none s, 0, padTo 20 rdata⟩] := (rfl)

@[simp] theorem reject_h (s : State) (cause : Cause) : (s.reject cause).h = s.h := (rfl)
@[simp] theorem reject_len (s : State) (cause : Cause) : (s.reject cause).len = s.len := (rfl)
@[simp] theorem reject_phase (s : State) (cause : Cause) : (s.reject cause).phase = s.phase := (rfl)
@[simp] theorem reject_err (s : State) (cause : Cause) : (s.reject cause).err = s.err := (rfl)
@[simp] theorem reject_inputs (s : State) (cause : Cause) : (s.reject cause).inputs = s.inputs := (rfl)
@[simp] theorem reject_responses (s : State) (cause : Cause) : (s.reject cause).responses = s.responses ++ [⟨Machine.rhdr (some cause) s, 0, padTo 20 []⟩] := (rfl)

@[simp] theorem startMessage_h (s : State) : (s.startMessage).h = DigestState.iv := (rfl)
@[simp] theorem startMessage_len (s : State) : (s.startMessage).len = 0 := (rfl)
@[simp] theorem startMessage_phase (s : State) : (s.startMessage).phase = .init := (rfl)
@[simp] theorem startMessage_err (s : State) : (s.startMessage).err = false := (rfl)
@[simp] theorem startMessage_inputs (s : State) : (s.startMessage).inputs = s.inputs := (rfl)
@[simp] theorem startMessage_responses (s : State) : (s.startMessage).responses = s.responses := (rfl)

@[simp] theorem resetEngine_h (s : State) : (s.resetEngine).h = DigestState.iv := (rfl)
@[simp] theorem resetEngine_len (s : State) : (s.resetEngine).len = 0 := (rfl)
@[simp] theorem resetEngine_phase (s : State) : (s.resetEngine).phase = .init := (rfl)
@[simp] theorem resetEngine_err (s : State) : (s.resetEngine).err = false := (rfl)
@[simp] theorem resetEngine_inputs (s : State) : (s.resetEngine).inputs = s.inputs := (rfl)
@[simp] theorem resetEngine_responses (s : State) : (s.resetEngine).responses = s.responses := (rfl)

@[simp] theorem breakMessage_h (s : State) : (s.breakMessage).h = s.h := (rfl)
@[simp] theorem breakMessage_len (s : State) : (s.breakMessage).len = s.len := (rfl)
@[simp] theorem breakMessage_phase (s : State) : (s.breakMessage).phase = .error := (rfl)
@[simp] theorem breakMessage_err (s : State) : (s.breakMessage).err = true := (rfl)
@[simp] theorem breakMessage_inputs (s : State) : (s.breakMessage).inputs = s.inputs := (rfl)
@[simp] theorem breakMessage_responses (s : State) : (s.breakMessage).responses = s.responses := (rfl)

@[simp] theorem absorbBlock_h (s : State) (b : Block) : (s.absorbBlock b).h = cf s.h b := mk_h (cf s.h b) (s.len + 512) .proc s.err s.inputs s.responses
@[simp] theorem absorbBlock_len (s : State) (b : Block) : (s.absorbBlock b).len = s.len + 512 := mk_len (cf s.h b) (s.len + 512) .proc s.err s.inputs s.responses
@[simp] theorem absorbBlock_phase (s : State) (b : Block) : (s.absorbBlock b).phase = .proc := mk_phase (cf s.h b) (s.len + 512) .proc s.err s.inputs s.responses
@[simp] theorem absorbBlock_err (s : State) (b : Block) : (s.absorbBlock b).err = s.err := mk_err (cf s.h b) (s.len + 512) .proc s.err s.inputs s.responses
@[simp] theorem absorbBlock_inputs (s : State) (b : Block) : (s.absorbBlock b).inputs = s.inputs := mk_inputs (cf s.h b) (s.len + 512) .proc s.err s.inputs s.responses
@[simp] theorem absorbBlock_responses (s : State) (b : Block) : (s.absorbBlock b).responses = s.responses := mk_responses (cf s.h b) (s.len + 512) .proc s.err s.inputs s.responses

@[simp] theorem absorbTail_h (s : State) (t : List Byte) : (s.absorbTail t).h = absorb s.h (blocks (tailBytes t (s.bitlen t.length))) := mk_h (absorb s.h (blocks (tailBytes t (s.bitlen t.length)))) (s.bitlen t.length) .final s.err s.inputs s.responses
@[simp] theorem absorbTail_len (s : State) (t : List Byte) : (s.absorbTail t).len = s.bitlen t.length := mk_len (absorb s.h (blocks (tailBytes t (s.bitlen t.length)))) (s.bitlen t.length) .final s.err s.inputs s.responses
@[simp] theorem absorbTail_phase (s : State) (t : List Byte) : (s.absorbTail t).phase = .final := mk_phase (absorb s.h (blocks (tailBytes t (s.bitlen t.length)))) (s.bitlen t.length) .final s.err s.inputs s.responses
@[simp] theorem absorbTail_err (s : State) (t : List Byte) : (s.absorbTail t).err = s.err := mk_err (absorb s.h (blocks (tailBytes t (s.bitlen t.length)))) (s.bitlen t.length) .final s.err s.inputs s.responses
@[simp] theorem absorbTail_inputs (s : State) (t : List Byte) : (s.absorbTail t).inputs = s.inputs := mk_inputs (absorb s.h (blocks (tailBytes t (s.bitlen t.length)))) (s.bitlen t.length) .final s.err s.inputs s.responses
@[simp] theorem absorbTail_responses (s : State) (t : List Byte) : (s.absorbTail t).responses = s.responses := mk_responses (absorb s.h (blocks (tailBytes t (s.bitlen t.length)))) (s.bitlen t.length) .final s.err s.inputs s.responses

@[simp] theorem dropInput_h (s : State) : (s.dropInput).h = s.h := (rfl)
@[simp] theorem dropInput_len (s : State) : (s.dropInput).len = s.len := (rfl)
@[simp] theorem dropInput_phase (s : State) : (s.dropInput).phase = s.phase := (rfl)
@[simp] theorem dropInput_err (s : State) : (s.dropInput).err = s.err := (rfl)
@[simp] theorem dropInput_inputs (s : State) : (s.dropInput).inputs = s.inputs.tail := (rfl)
@[simp] theorem dropInput_responses (s : State) : (s.dropInput).responses = s.responses := (rfl)

@[simp] theorem present_h (s : State) (es : List HostEvent) : (s.present es).h = s.h := (rfl)
@[simp] theorem present_len (s : State) (es : List HostEvent) : (s.present es).len = s.len := (rfl)
@[simp] theorem present_phase (s : State) (es : List HostEvent) : (s.present es).phase = s.phase := (rfl)
@[simp] theorem present_err (s : State) (es : List HostEvent) : (s.present es).err = s.err := (rfl)
@[simp] theorem present_inputs (s : State) (es : List HostEvent) : (s.present es).inputs = es ++ s.inputs := (rfl)
@[simp] theorem present_responses (s : State) (es : List HostEvent) : (s.present es).responses = s.responses := (rfl)

end Sys2Proof.Machine.State
end

