-- ==== Sys2Proof/Laws/Bytes.lean ====
section
/-! SUPPORT. The codec, its two sequence helpers, padded operand arrays, and the length field. -/

namespace Sys2Proof.Machine

/-! ### Arrays padded with zeros -/

theorem padTo_toList (k : Nat) (l : List Byte) : (padTo k l).toList = (l ++ List.replicate k 0).take k := by
  simp [padTo, Vector.toList]

/-- A list of exactly the array's length is kept whole. -/
theorem padTo_toList_of_length {k : Nat} {l : List Byte} (h : l.length = k) : (padTo k l).toList = l := by
  rw [padTo_toList, ← h, List.take_left]

/-- Reading one element: the list's byte, or 0x00 after its end. -/
theorem padTo_getElem (k : Nat) (l : List Byte) (i : Nat) (h : i < k) : (padTo k l)[i] = l.getD i 0 := by
  have e : (padTo k l)[i] = (l ++ List.replicate k 0)[i]'(by simp; omega) := by
    simp [padTo]
  rw [e, List.getElem_append]
  split
  · next hl => simp [List.getD_eq_getElem?_getD, hl]
  · next hl => simp [List.getD_eq_getElem?_getD, List.getElem?_eq_none (Nat.le_of_not_lt hl)]

/-- An array is its own list padded. -/
theorem padTo_of_toList {k : Nat} (v : Vector Byte k) : padTo k v.toList = v := by
  apply Vector.toList_inj.mp
  exact padTo_toList_of_length (by simp)

/-! ### PACK and UNPACK -/

@[simp] theorem unpackBytes_length (w : Word) : (unpackBytes w).length = 4 := rfl

@[simp] theorem ser_length (h : DigestState) : (ser h).length = 20 := rfl

@[simp] theorem le64_length (v : Len) : (le64 v).length = 8 := rfl

/-- PACK lays its bytes side by side, the last one most significant (R40). -/
theorem pack_eq_append (b0 b1 b2 b3 : Byte) : pack b0 b1 b2 b3 = b3 ++ b2 ++ b1 ++ b0 := by
  apply BitVec.eq_of_getLsbD_eq
  intro i hi
  simp only [pack, BitVec.getLsbD_or, BitVec.getLsbD_shiftLeft, BitVec.getLsbD_setWidth, BitVec.getLsbD_append]
  interval_cases i <;> simp

/-- The value of PACK as a sum with no carry between the terms (R40). -/
theorem pack_toNat (b0 b1 b2 b3 : Byte) :
    (pack b0 b1 b2 b3).toNat = b0.toNat + 256 * b1.toNat + 65536 * b2.toNat + 16777216 * b3.toNat := by
  have h0 := b0.isLt
  have h1 := b1.isLt
  have h2 := b2.isLt
  rw [pack_eq_append]
  simp only [BitVec.toNat_append]
  rw [← Nat.shiftLeft_add_eq_or_of_lt h0, ← Nat.shiftLeft_add_eq_or_of_lt h1, ← Nat.shiftLeft_add_eq_or_of_lt h2]
  simp only [Nat.shiftLeft_eq]
  omega

/-- Message word `i` is the PACK of the block's bytes `4i` to `4i+3` (R44). -/
theorem words_getElem (b : Block) (i : Nat) (h : i < 16) :
    (words b)[i] = pack b[4 * i] b[4 * i + 1] b[4 * i + 2] b[4 * i + 3] := by
  simp [words]

/-! ### Flat buses -/

theorem busValue_lt (l : List Byte) : busValue l < 2 ^ (8 * l.length) := by
  induction l with
  | nil => simp [busValue]
  | cons b bs ih =>
    have hb := b.isLt
    have e : 2 ^ (8 * (b :: bs).length) = 256 * 2 ^ (8 * bs.length) := by
      rw [List.length_cons, Nat.mul_add, Nat.pow_add]
      omega
    rw [e]
    simp only [busValue]
    omega

/-- Digit `i` of a bus value is byte `i` (R22). -/
theorem busValue_digit (l : List Byte) (i : Nat) (h : i < l.length) :
    busValue l / 2 ^ (8 * i) % 256 = l[i].toNat := by
  induction l generalizing i with
  | nil => simp at h
  | cons b bs ih =>
    have hb := b.isLt
    cases i with
    | zero =>
      simp only [busValue]
      simp
      omega
    | succ i =>
      have e : 2 ^ (8 * (i + 1)) = 256 * 2 ^ (8 * i) := by
        rw [Nat.mul_add, Nat.pow_add]
        omega
      rw [e, ← Nat.div_div_eq_div_mul]
      have d : busValue (b :: bs) / 256 = busValue bs := by
        simp only [busValue]
        omega
      rw [d, ih i (by simpa using h)]
      rfl

end Sys2Proof.Machine
end

