-- ==== Sys2Proof/Laws/Compress.lean ====
section
/-! SUPPORT. Rotation, and the lines of a compression as one list of steps (spec 42_compression.md). -/

namespace Sys2Proof.Machine

/-- The shifts of R6 are the circular rotation, for every amount below the width. -/
theorem rol_eq_rotateLeft (x : Word) (n : Nat) (h : n < 32) : rol x n = x.rotateLeft n := by
  rw [rol, BitVec.rotateLeft_def, Nat.mod_eq_of_lt h]

/-- Every rotation amount of the tables is 5 to 15 (R58). -/
theorem rotOf_range (side : Side) (r : Fin 5) (j : Fin 16) : 5 ≤ rotOf side r j ∧ rotOf side r j ≤ 15 := by
  cases side <;> revert r j <;> decide

/-- The 80 steps of a line in order, as (round, step) pairs (R60). -/
def lineOrder : List (Fin 5 × Fin 16) := roundIndices.flatMap fun r => stepIndices.map fun j => (r, j)

/-- A line is its 80 steps in order. -/
theorem line_eq_foldl (side : Side) (h : DigestState) (x : Vector Word 16) :
    line side h x = lineOrder.foldl (fun g p => stepRegs side x p.1 p.2 g) (loadRegs h) := by
  unfold line roundRegs lineOrder
  simp only [List.foldl_flatMap, List.foldl_map]

/-- The `k`-th step of a line is step `k % 16` of round `k / 16`. -/
theorem lineOrder_eq : lineOrder = (List.range 80).map fun k => (Fin.ofNat 5 (k / 16), Fin.ofNat 16 k) := by decide

end Sys2Proof.Machine
end

