-- ==== Sys2Proof/Laws/Padding.lean ====
section
/-! SUPPORT. Lengths of padded messages, and how BLOCKS cuts a list (spec 41_padding.md R45 to R49). -/

namespace Sys2Proof.Machine

@[simp] theorem zeros_length (k : Nat) : (zeros k).length = k := by simp [zeros]

theorem padZeros_lt (n : Nat) : padZeros n < 64 := Nat.mod_lt _ (by decide)

/-- `z` depends on the length only through its residue modulo 64 (R51). -/
theorem padZeros_mod (n : Nat) : padZeros (n % 64) = padZeros n := by simp [padZeros]

/-- Message, marker, zero run and length field fill whole blocks (R47 (a)). -/
theorem padZeros_spec (n : Nat) : (n + 1 + padZeros n + 8) % 64 = 0 := by
  unfold padZeros
  omega

theorem tailBytes_length (t : List Byte) (v : Len) : (tailBytes t v).length = t.length + 1 + padZeros t.length + 8 := by
  simp [tailBytes]
  omega

/-- LAST runs one compression for at most 55 bytes and two for 56 to 63 (R49, R50). -/
theorem tailBytes_blocks_length (t : List Byte) (v : Len) (h : t.length ≤ 63) :
    (tailBytes t v).length / 64 = if t.length ≤ 55 then 1 else 2 := by
  rw [tailBytes_length]
  unfold padZeros
  split <;> omega

/-- PAD is TAIL of the whole message with the message's own length. -/
theorem pad_eq_tailBytes (m : List Byte) : pad m = tailBytes m (BitVec.ofNat 64 (8 * m.length)) := rfl

theorem pad_length (m : List Byte) : (pad m).length = m.length + 1 + padZeros m.length + 8 := tailBytes_length _ _

@[simp] theorem blocks_length (p : List Byte) : (blocks p).length = p.length / 64 := by simp [blocks]

/-- A chunk of exactly 64 bytes is the block's bytes. -/
theorem ofList_toList {l : List Byte} (h : l.length = 64) : (Block.ofList l).toList = l := padTo_toList_of_length h

/-- A list of exactly 64 bytes is one block. -/
theorem blocks_single {p : List Byte} (h : p.length = 64) : blocks p = [Block.ofList p] := by
  have e : List.range (p.length / 64) = [0] := by rw [h]; rfl
  rw [blocks, e, List.map_singleton, Nat.mul_zero, List.drop_zero, List.take_of_length_le (by omega)]

/-- Cutting after a multiple of 64 bytes cuts nothing in two. -/
theorem blocks_append {p : List Byte} (q : List Byte) (h : p.length % 64 = 0) : blocks (p ++ q) = blocks p ++ blocks q := by
  obtain ⟨k, hk⟩ := Nat.dvd_of_mod_eq_zero h
  unfold blocks
  rw [List.length_append, hk, Nat.mul_add_div (by decide), Nat.mul_div_cancel_left k (by decide), List.range_add,
    List.map_append, List.map_map]
  congr 1
  · apply List.map_congr_left
    intro i hi
    have hi : i < k := by simpa using hi
    rw [List.drop_append_of_le_length (by omega), List.take_append_of_le_length (by simp; omega)]
  · apply List.map_congr_left
    intro i _
    simp only [Function.comp]
    rw [List.drop_append, List.drop_eq_nil_of_le (by omega), List.nil_append, hk,
      show 64 * (k + i) - 64 * k = 64 * i by omega]

/-- The full blocks of a message are those of its first `64 * (L / 64)` bytes. -/
theorem blocks_take (m : List Byte) : blocks (m.take (64 * (m.length / 64))) = blocks m := by
  have hl : (m.take (64 * (m.length / 64))).length = 64 * (m.length / 64) := by
    rw [List.length_take]
    omega
  have ht : blocks (lastFragment m) = [] := by
    apply List.eq_nil_of_length_eq_zero
    rw [blocks_length, lastFragment, List.length_drop]
    omega
  have e := blocks_append (p := m.take (64 * (m.length / 64))) (lastFragment m) (by omega)
  rw [lastFragment, List.take_append_drop, ← lastFragment, ht, List.append_nil] at e
  exact e.symm

theorem lastFragment_length (m : List Byte) : (lastFragment m).length = m.length % 64 := by
  rw [lastFragment, List.length_drop]
  omega

@[simp] theorem absorb_nil (h : DigestState) : absorb h [] = h := rfl

@[simp] theorem absorb_cons (h : DigestState) (b : Block) (bs : List Block) : absorb h (b :: bs) = absorb (cf h b) bs := rfl

theorem absorb_append (h : DigestState) (bs cs : List Block) : absorb h (bs ++ cs) = absorb (absorb h bs) cs :=
  List.foldl_append

end Sys2Proof.Machine
end

