-- ==== Sys2Proof/Laws/Decode.lean ====
section
/-! SUPPORT. The decoder and the encoder: when a record decodes, and the fields of an encoded command. -/

namespace Sys2Proof

/-- The inversion of R35: a record decodes exactly when its reserved bits are zero, its operation code selects a row, and its
count is zero outside LAST; it then gives that row's command. -/
theorem decode_eq_ok (c : Command) (i : Instr) :
    decode c = .ok i ↔ c.rsv = 0 ∧ decodeRow c = some i ∧ (c.op = 3 ∨ c.n = 0) := by
  unfold decode
  by_cases h : c.rsv = 0
  · rw [if_neg (not_not_intro h)]
    cases hr : decodeRow c with
    | none => simp
    | some j =>
      dsimp only
      by_cases hf : c.op ≠ 3 ∧ c.n ≠ 0
      · rw [if_pos hf]
        simp only [reduceCtorEq, false_iff, not_and]
        intro _ _
        tauto
      · rw [if_neg hf]
        simp only [Except.ok.injEq, h, Option.some.injEq, true_and]
        tauto
  · rw [if_pos h]
    simp only [reduceCtorEq, h, false_and]

/-- The three reasons of R35, in the rule's order. -/
theorem decode_reservedBits {c : Command} (h : c.rsv ≠ 0) : decode c = .error .reservedBits := by
  unfold decode
  rw [if_pos h]

theorem decode_reservedOpcode {c : Command} (h : c.rsv = 0) (hr : decodeRow c = none) : decode c = .error .reservedOpcode := by
  unfold decode
  rw [if_neg (not_not_intro h), hr]

theorem decode_strayCount {c : Command} {i : Instr} (h : c.rsv = 0) (hr : decodeRow c = some i) (h3 : c.op ≠ 3) (hn : c.n ≠ 0) :
    decode c = .error .strayCount := by
  unfold decode
  rw [if_neg (not_not_intro h), hr]
  exact if_pos ⟨h3, hn⟩

/-- Decoding is total: a command, or a named reason (R35). -/
theorem decode_total (c : Command) : (∃ i, decode c = .ok i) ∨ ∃ e, decode c = .error e := by
  cases decode c with
  | ok i => exact .inl ⟨i, rfl⟩
  | error e => exact .inr ⟨e, rfl⟩

theorem dataBytes_length (c : Command) (k : Nat) (h : k ≤ 64) : (c.dataBytes k).length = k := by
  simp [Command.dataBytes, h]

@[simp] theorem encode_hdr (i : Instr) : (encode i).hdr = encodeHeader i := rfl
@[simp] theorem encode_w (i : Instr) : (encode i).w = encodeWord i := rfl
@[simp] theorem encode_data (i : Instr) : (encode i).data = encodeData i := rfl

/-- The header fields as numbers. -/
theorem op_toNat (c : Command) : c.op.toNat = c.hdr.toNat % 16 := by
  simp [Command.op, BitVec.extractLsb'_toNat]

theorem n_toNat (c : Command) : c.n.toNat = c.hdr.toNat / 16 % 64 := by
  simp [Command.n, BitVec.extractLsb'_toNat, Nat.shiftRight_eq_div_pow]

theorem rsv_toNat (c : Command) : c.rsv.toNat = c.hdr.toNat / 1024 := by
  have := c.hdr.isLt
  simp [Command.rsv, BitVec.extractLsb'_toNat, Nat.shiftRight_eq_div_pow]
  omega

/-- The decoder's row by the number in `HDR[3:0]` (R33). -/
theorem decodeRow_eq (c : Command) : decodeRow c =
    match c.hdr.toNat % 16 with
    | 0 => some .stat
    | 1 => some .init
    | 2 => some (.block c.data)
    | 3 => some (.last (c.dataBytes (c.hdr.toNat / 16 % 64)))
    | 4 => some .read
    | 5 => some (.pack c.data[0] c.data[1] c.data[2] c.data[3])
    | 6 => some (.unpack c.w)
    | _ => none := by
  unfold decodeRow
  rw [op_toNat, n_toNat] <;> rfl

/-- The inversion of R35 with the fields as numbers. -/
theorem decode_eq_ok_iff (c : Command) (i : Instr) :
    decode c = .ok i ↔
      c.hdr.toNat / 1024 = 0 ∧ decodeRow c = some i ∧ (c.hdr.toNat % 16 = 3 ∨ c.hdr.toNat / 16 % 64 = 0) := by
  rw [decode_eq_ok, ← rsv_toNat, ← op_toNat, ← n_toNat, ← BitVec.toNat_inj, ← BitVec.toNat_inj, ← BitVec.toNat_inj]
  rfl

/-- The header of LAST as a number (R33): 16 n + 3. -/
theorem encodeHeader_last_toNat (t : List Byte) (h : t.length ≤ 63) :
    (encodeHeader (.last t)).toNat = 16 * t.length + 3 := by
  have e : ∀ n : Fin 64, ((BitVec.ofNat 16 n.val <<< 4) ||| 3 : BitVec 16).toNat = 16 * n.val + 3 := by decide
  exact e ⟨t.length, by omega⟩

end Sys2Proof
end

