-- ==== Sys2Proof/Laws/Exec.lean ====
section
/-! SUPPORT. What a command can do, said once: every command answers a next state and delivers one response, and its effect on
the registers is one of a few cases. -/

namespace Sys2Proof.Machine

/-- The phases of an open message. -/
theorem closed_iff (s : State) : s.closed = true ↔ s.phase = .final ∨ s.phase = .error := by
  unfold State.closed
  cases s.phase <;> decide

theorem not_closed_iff (s : State) : s.closed = false ↔ s.phase = .init ∨ s.phase = .proc := by
  unfold State.closed
  cases s.phase <;> decide

/-- The overflow comparison on numbers (R81): `LEN > 2^64 - 513`. -/
theorem full_iff (s : State) : s.full = true ↔ 2 ^ 64 - 513 < s.len.toNat := by
  unfold State.full Config.blockBits Config.maxBitLen
  rw [decide_eq_true_iff]
  omega

/-- What BLOCK does (R65, R84): one of three cases, told apart by the state. -/
theorem execBlock_cases (data : Block) (s : State) :
    (s.closed = true ∧ execBlock data s = .next (s.reject .protocol)) ∨
    (s.closed = false ∧ s.full = true ∧ execBlock data s = .next (s.breakMessage.reject .inputTooLarge)) ∨
    (s.closed = false ∧ s.full = false ∧ execBlock data s = .next (s.absorbBlock data).accept) := by
  unfold execBlock
  cases s.closed <;> cases s.full <;> simp

/-- What LAST does (R50). -/
theorem execLast_cases (tail : List Byte) (s : State) :
    (s.closed = true ∧ execLast tail s = .next (s.reject .protocol)) ∨
    (s.closed = false ∧ execLast tail s = .next (s.absorbTail tail).accept) := by
  unfold execLast
  cases s.closed <;> simp

/-- What READ does (R72). -/
theorem execRead_cases (s : State) :
    (s.phase = .final ∧ execRead s = .next (s.acceptBytes (ser s.h))) ∨
    (s.phase ≠ .final ∧ execRead s = .next (s.reject .protocol)) := by
  unfold execRead
  by_cases h : s.phase = .final <;> simp [h]

/-- What a command can do to the registers: nothing; a fresh message; one block; the overflow refusal; the last fragment. -/
inductive RegEffect (i : Instr) (s t : State) : Prop where
  | same (h : t.registers = s.registers) (hi : i ≠ .init)
  | fresh (h : t.registers = (DigestState.iv, 0, .init, false)) (hi : i = .init)
  | block (b : Block) (hi : i = .block b) (ho : s.closed = false) (hf : s.full = false)
      (h : t.registers = (cf s.h b, s.len + 512, .proc, s.err))
  | overflow (b : Block) (hi : i = .block b) (ho : s.closed = false) (hf : s.full = true)
      (h : t.registers = (s.h, s.len, .error, true))
  | last (l : List Byte) (hi : i = .last l) (ho : s.closed = false)
      (h : t.registers = (absorb s.h (blocks (tailBytes l (s.bitlen l.length))), s.bitlen l.length, .final, s.err))

/-- The inversion of `exec`: every command answers a next state that leaves the host's coming events alone, delivers exactly one
response after those already delivered, and has one of the register effects above. -/
theorem exec_effect (i : Instr) (s : State) :
    ∃ t r, exec i s = .next t ∧ t.inputs = s.inputs ∧ t.responses = s.responses ++ [r] ∧ RegEffect i s t := by
  cases i with
  | stat => exact ⟨_, _, rfl, rfl, rfl, .same rfl (by simp)⟩
  | init => exact ⟨_, _, rfl, rfl, rfl, .fresh rfl rfl⟩
  | block data =>
    rcases execBlock_cases data s with ⟨_, e⟩ | ⟨ho, hf, e⟩ | ⟨ho, hf, e⟩
    · exact ⟨_, _, e, rfl, rfl, .same rfl (by simp)⟩
    · exact ⟨_, _, e, rfl, rfl, .overflow data rfl ho hf rfl⟩
    · exact ⟨_, ⟨rhdr none (s.absorbBlock data), 0, padTo 20 []⟩, e, by simp, by simp, .block data rfl ho hf (by simp [State.registers])⟩
  | last tail =>
    rcases execLast_cases tail s with ⟨_, e⟩ | ⟨ho, e⟩
    · exact ⟨_, _, e, rfl, rfl, .same rfl (by simp)⟩
    · exact ⟨_, ⟨rhdr none (s.absorbTail tail), 0, padTo 20 []⟩, e, by simp, by simp, .last tail rfl ho (by simp [State.registers])⟩
  | read =>
    rcases execRead_cases s with ⟨_, e⟩ | ⟨_, e⟩
    · exact ⟨_, _, e, rfl, rfl, .same rfl (by simp)⟩
    · exact ⟨_, _, e, rfl, rfl, .same rfl (by simp)⟩
  | pack b0 b1 b2 b3 => exact ⟨_, _, rfl, rfl, rfl, .same rfl (by simp)⟩
  | unpack w => exact ⟨_, _, rfl, rfl, rfl, .same rfl (by simp)⟩

end Sys2Proof.Machine
end

