-- ==== Sys2Proof/Laws/Flags.lean ====
section
/-! SUPPORT. The response header and STATUS as numbers (spec 30_encoding.md R34, 10_state.md R15). -/

namespace Sys2Proof.Machine

theorem status_toNat (s : State) : (status s).toNat = (phaseCode s.phase).toNat + 4 * s.err.toNat := by
  unfold status
  cases s.phase <;> cases s.err <;> decide

/-- The header's fields as digits: ACK, CAUSE, PHASE, ERR from the low end. -/
theorem rhdr_toNat (cause : Option Cause) (s : State) :
    (rhdr cause s).toNat =
      32 * s.err.toNat + 8 * (phaseCode s.phase).toNat + 2 * (causeCode cause).toNat + cause.isNone.toNat := by
  unfold rhdr
  cases s.err <;> cases s.phase <;> rcases cause with _ | _ | _ | _ <;> decide

/-- STATUS is bits 5:3 of every header (R15). -/
theorem rhdr_status (cause : Option Cause) (s : State) : (rhdr cause s).extractLsb' 3 3 = status s := by
  unfold rhdr status
  cases s.err <;> cases s.phase <;> rcases cause with _ | _ | _ | _ <;> decide

/-- The header depends on the phase, the error bit and the cause only. -/
theorem rhdr_congr {s t : State} (hp : s.phase = t.phase) (he : s.err = t.err) (cause : Option Cause) :
    rhdr cause s = rhdr cause t := by
  rw [rhdr, rhdr, hp, he]

end Sys2Proof.Machine
end

