-- ==== Sys2Proof/Laws/PerInstr.lean ====
section
/-! SUPPORT. Statements for all commands, one lemma per constructor: every well-formed command is encoded with reserved bits
zero, with an operation code below 7, and with a zero count unless it is LAST (spec 30_encoding.md R31, R33). -/

namespace Sys2Proof.Laws.HeaderForm

/-- The header of the encoded command is one that R35 does not reject. -/
def Statement (i : Instr) : Prop :=
  i.wellFormed = true → (encode i).rsv = 0 ∧ (encode i).op.toNat < 7 ∧ ((encode i).op = 3 ∨ (encode i).n = 0)

theorem stat : Statement .stat := fun _ => by decide
theorem init : Statement .init := fun _ => by decide
theorem block (data : Block) : Statement (.block data) := fun _ =>
  ⟨show (0x0002 : BitVec 16).extractLsb' 10 6 = 0 by decide, show ((0x0002 : BitVec 16).extractLsb' 0 4).toNat < 7 by decide,
    .inr (show (0x0002 : BitVec 16).extractLsb' 4 6 = 0 by decide)⟩
theorem last (tail : List Byte) : Statement (.last tail) := fun h => by
  have hl : tail.length ≤ 63 := of_decide_eq_true h
  have e : (encode (.last tail)).hdr.toNat = 16 * tail.length + 3 := encodeHeader_last_toNat tail hl
  have ho : (encode (.last tail)).op = 3 := BitVec.eq_of_toNat_eq (by rw [op_toNat, e, Nat.mul_add_mod]; rfl)
  refine ⟨BitVec.eq_of_toNat_eq ?_, by rw [ho]; decide, .inl ho⟩
  rw [rsv_toNat, e]
  simp
  omega
theorem read : Statement .read := fun _ => by decide
theorem pack (b0 b1 b2 b3 : Byte) : Statement (.pack b0 b1 b2 b3) := fun _ =>
  ⟨show (0x0005 : BitVec 16).extractLsb' 10 6 = 0 by decide, show ((0x0005 : BitVec 16).extractLsb' 0 4).toNat < 7 by decide,
    .inr (show (0x0005 : BitVec 16).extractLsb' 4 6 = 0 by decide)⟩
theorem unpack (w : Word) : Statement (.unpack w) := fun _ =>
  ⟨show (0x0006 : BitVec 16).extractLsb' 10 6 = 0 by decide, show ((0x0006 : BitVec 16).extractLsb' 0 4).toNat < 7 by decide,
    .inr (show (0x0006 : BitVec 16).extractLsb' 4 6 = 0 by decide)⟩

end Sys2Proof.Laws.HeaderForm
end

