-- ==== Sys2Proof/Laws/Step.lean ====
section
/-! SUPPORT. What a step can do, said once, and runs of several steps. -/

namespace Sys2Proof.Machine

theorem step_nil {s : State} (h : s.inputs = []) : step s = .next s := by
  unfold step
  rw [h]

theorem step_cons {s : State} {e : HostEvent} {rest : List HostEvent} (h : s.inputs = e :: rest) :
    step s = takeEvent e s.dropInput := by
  unfold step
  rw [h]

theorem takeCommand_ok {c : Command} {i : Instr} (h : decode c = .ok i) (s : State) : takeCommand c s = exec i s := by
  unfold takeCommand
  rw [h]

theorem takeCommand_error {c : Command} {e : Illegal} (h : decode c = .error e) (s : State) :
    takeCommand c s = .next (s.reject .illegal) := by
  unfold takeCommand
  rw [h]

/-- The inversion of taking a command: a next state, the host's coming events kept, one response more, and either the effect of
the decoded command on the registers or none. -/
theorem takeCommand_effect (c : Command) (s : State) :
    ∃ t r, takeCommand c s = .next t ∧ t.inputs = s.inputs ∧ t.responses = s.responses ++ [r] ∧
      ((∃ i, decode c = .ok i ∧ RegEffect i s t) ∨ ((∃ e, decode c = .error e) ∧ t.registers = s.registers)) := by
  rcases decode_total c with ⟨i, hi⟩ | ⟨e, he⟩
  · obtain ⟨t, r, h, h1, h2, h3⟩ := exec_effect i s
    exact ⟨t, r, by rw [takeCommand_ok hi, h], h1, h2, .inl ⟨i, hi, h3⟩⟩
  · exact ⟨_, _, takeCommand_error he s, rfl, rfl, .inr ⟨⟨e, he⟩, rfl⟩⟩

/-- Equal registers are equal field by field. -/
theorem registers_eq {s : State} {h : DigestState} {l : Len} {p : Phase} {e : Bool} :
    s.registers = (h, l, p, e) ↔ s.h = h ∧ s.len = l ∧ s.phase = p ∧ s.err = e := by
  simp [State.registers]

/-- `k + 1` steps of any machine: the first, then the other `k`. -/
theorem coreRun_succ (M : Host.Core) {s t : M.State} (k : Nat) (h : M.step s = .next t) : M.run (k + 1) s = M.run k t := by
  simp only [Host.Core.run, h]

/-- Steps of any machine compose. -/
theorem coreRun_add (M : Host.Core) {s t : M.State} (k n : Nat) (h : M.run k s = .next t) : M.run (k + n) s = M.run n t := by
  induction k generalizing s with
  | zero =>
    simp only [Host.Core.run, Host.Outcome.next.injEq] at h
    rw [Nat.zero_add, h]
  | succ k ih =>
    rw [Nat.add_right_comm]
    cases hs : M.step s with
    | next u =>
      rw [coreRun_succ M _ hs] at h ⊢
      exact ih h
    | fault r => simp [Host.Core.run, hs] at h
    | refused r => simp [Host.Core.run, hs] at h

theorem run_succ {s t : State} (k : Nat) (h : step s = .next t) :
    Host.Core.run Sys2Proof.core (k + 1) s = Host.Core.run Sys2Proof.core k t := coreRun_succ Sys2Proof.core k h

theorem run_zero (s : State) : Host.Core.run Sys2Proof.core 0 s = .next s := rfl

theorem run_add {s t : State} (k n : Nat) (h : Host.Core.run Sys2Proof.core k s = .next t) :
    Host.Core.run Sys2Proof.core (k + n) s = Host.Core.run Sys2Proof.core n t := coreRun_add Sys2Proof.core k n h

end Sys2Proof.Machine
end

