-- ==== Sys2Proof/Machine/Timing.lean ====
section
/-! DEFINITION. The open parameter `T_CMD(command, state)` (spec 70_reset_and_hazards.md R105, 92_eei_decisions.md D17):
any positive, finite time. No step reads it. -/

namespace Sys2Proof.Machine

/-- `T_CMD`: the time from the acceptance of a command in a state to its response (R105). -/
def tCmd (c : Command) (s : State) : Nat :=
  Config.freeTime c.hdr c.w c.data.toList [s.h.h0, s.h.h1, s.h.h2, s.h.h3, s.h.h4] s.len (status s) + 1

end Sys2Proof.Machine
end

