-- ==== Sys2Proof/Tests/Slice0.lean ====
section
/-! SUPPORT. Tests. The expected values are the spec's own: 95_test_vectors.md, 96_trace_vectors.md and the worked examples of the
rules. After them, for every obligation that has hypotheses, a theorem named `witness_…` that meets them. -/

namespace Sys2Proof.Tests

open Sys2Proof Sys2Proof.Machine Sys2Proof.Spec

/-! ### Helpers -/

/-- Sixty-four zero bytes. -/
def zeroBlock : Block := Block.ofList []

/-- A block whose bytes are all different: byte `i` is `i` (95_test_vectors.md section 3.6). -/
def countBlock : Block := Vector.ofFn fun (i : Fin 64) => BitVec.ofNat 8 i.val

/-- A command with this header and distinct operand bytes. -/
def cmd (hdr : BitVec 16) : Command := ⟨hdr, 0x12345678, countBlock⟩

/-- An engine in this phase with this count: the digest state of "abc", nothing presented, nothing answered. -/
def engine (p : Phase) (len : Nat) : State :=
  { h := ⟨0xF708B28E, 0x7A985DE0, 0x8E4A049B, 0x87B0C698, 0xFC0B5AF1⟩, len := BitVec.ofNat 64 len, phase := p,
    err := p == .error, inputs := [], responses := [] }

/-- A message with the first block absorbed. -/
def midMessage : State := engine .proc 512

/-- The last state in which a block still fits. -/
def roomForOne : State := engine .proc (2 ^ 64 - 1024)

/-- The state in which the next block overflows the count. -/
def atLimit : State := engine .proc (2 ^ 64 - 512)

/-- The digest of "abc" is ready. -/
def finished : State := engine .final 24

/-- A block was refused for overflow. -/
def broken : State := engine .error (2 ^ 64 - 512)

/-- The outcome is a next state of which the test holds. -/
def answers (o : Host.Outcome State Fault Refusal) (p : State → Bool) : Bool :=
  match o with
  | .next t => p t
  | .fault _ => false
  | .refused _ => false

theorem answers_next {o : Host.Outcome State Fault Refusal} {p : State → Bool} (h : answers o p = true) :
    ∃ t, o = .next t ∧ p t = true := by
  cases o with
  | next t => exact ⟨t, rfl, h⟩
  | fault f => cases h
  | refused r => cases h

/-! ### WellFormed -/

theorem test_wellFormed_last_64_refused : Instr.wellFormed (.last (List.replicate 64 0)) = false := by decide
theorem test_wellFormed_last_63 : Instr.wellFormed (.last (List.replicate 63 0)) = true := by decide

/-! ### Decoding: headers written out from 30_encoding.md R33 and 95_test_vectors.md section 7.1 -/

theorem test_decode_stat : decode (cmd 0b0000000000000000) = .ok .stat := by decide
theorem test_decode_init : decode (cmd 0b0000000000000001) = .ok .init := by decide
theorem test_decode_block : decode (cmd 0b0000000000000010) = .ok (.block countBlock) := by decide
theorem test_decode_last0 : decode (cmd 0b0000000000000011) = .ok (.last []) := by decide
theorem test_decode_last3 : decode (cmd 0b0000000000110011) = .ok (.last [0, 1, 2]) := by decide
theorem test_decode_last16 : (encode (.last (List.replicate 16 0xAA))).hdr = 0x0103 := by decide
theorem test_decode_last63 : (encode (.last (List.replicate 63 0xAA))).hdr = 0x03F3 := by decide
theorem test_decode_read : decode (cmd 0b0000000000000100) = .ok .read := by decide
theorem test_decode_pack : decode (cmd 0b0000000000000101) = .ok (.pack 0 1 2 3) := by decide
theorem test_decode_unpack : decode (cmd 0b0000000000000110) = .ok (.unpack 0x12345678) := by decide
theorem test_decode_opcode7 : decode (cmd 0b0000000000000111) = .error .reservedOpcode := by decide
theorem test_decode_opcode15 : decode (cmd 0b0000000000001111) = .error .reservedOpcode := by decide
theorem test_decode_stray : decode (cmd 0b0000000000010000) = .error .strayCount := by decide
theorem test_decode_rsv : decode (cmd 0b0000010000000011) = .error .reservedBits := by decide

/-- The header alone decides legality: the same header with other operands (R35). -/
theorem test_decode_operands_free : decode ⟨0x0005, 0, zeroBlock⟩ = .ok (.pack 0 0 0 0) := by decide

theorem test_table_word_last : decodeTableWord 16 0x0033 = some (.last [0, 0, 0]) := by decide
theorem test_table_word_illegal : decodeTableWord 16 0x0013 = some (.last [0]) ∧ decodeTableWord 16 0x0012 = none := by decide

/-! ### The compression function (95_test_vectors.md sections 3.1, 3.3, 3.4, 3.6) -/

theorem test_rol : rol 0x12345678 10 = 0xD159E048 ∧ rol 0x80000001 1 = 0x00000003 := by decide

/-- The right line's first step on the block of the empty message. -/
theorem test_step_right : stepRegs .right (words (Block.ofList [0x80])) 0 0 (loadRegs DigestState.iv) =
    ⟨0xC3D2E1F0, 0xDDD63FB8, 0xEFCDAB89, 0xEB73FA62, 0x10325476⟩ := by decide +kernel

/-- The block of "abc": the right line's registers after round 4. -/
theorem test_line_abc : line .right DigestState.iv
      (words (Block.ofList ([0x61, 0x62, 0x63, 0x80] ++ List.replicate 52 0 ++ [0x18, 0, 0, 0, 0, 0, 0, 0]))) =
    ⟨0x81D4727D, 0x5FCCBADE, 0xBF627814, 0xFC0E2B04, 0x739C4C7A⟩ := by decide +kernel

/-- The block of bytes 0 to 63, in which every message word is different. -/
theorem test_cf_count : cf DigestState.iv countBlock = ⟨0xD6E08676, 0xA2E0EABA, 0xC4A552B7, 0x3B94ADCB, 0x54768374⟩ := by
  decide +kernel

/-- Every addition wraps. -/
theorem test_cf_ones : cf ⟨0xFFFFFFFF, 0xFFFFFFFF, 0xFFFFFFFF, 0xFFFFFFFF, 0xFFFFFFFF⟩ (Block.ofList (List.replicate 64 0xFF)) =
    ⟨0xF282655D, 0xD3828CF1, 0x4FE5E0C5, 0xA3892B3E, 0xD14F6FCE⟩ := by decide +kernel

/-! ### One step of each command (95_test_vectors.md sections 3.6, 3.7, 7.2, 7.3) -/

theorem test_stat_error : answers (exec .stat broken) (fun t => t.responses.map (·.rhdr) == [0x39]) = true := by decide +kernel

theorem test_init_clears_error : answers (exec .init broken) (fun t =>
    t.registers == State.reset.registers && t.responses.map (·.rhdr) == [0x01]) = true := by decide +kernel

/-- From reset, the block of bytes 0 to 63. -/
theorem test_block : answers (exec (.block countBlock) State.reset) (fun t =>
    t.h == ⟨0xD6E08676, 0xA2E0EABA, 0xC4A552B7, 0x3B94ADCB, 0x54768374⟩ && t.len == 512 && t.phase == .proc &&
      t.responses.map (·.rhdr) == [0x09]) = true := by decide +kernel

/-- The 2^55-th block is refused. -/
theorem test_block_overflow : answers (exec (.block countBlock) atLimit) (fun t =>
    t.h == atLimit.h && t.len == atLimit.len && t.err && t.responses.map (·.rhdr) == [0x3A]) = true := by decide +kernel

/-- LAST "abc" right after reset is the known answer K3. -/
theorem test_last_abc : answers (exec (.last [0x61, 0x62, 0x63]) State.reset) (fun t =>
    ser t.h == [0x8e, 0xb2, 0x08, 0xf7, 0xe0, 0x5d, 0x98, 0x7a, 0x9b, 0x04, 0x4a, 0x8e, 0x98, 0xc6, 0xb0, 0x87, 0xf1, 0x5a, 0x0b, 0xfc] &&
      t.len == 24 && t.phase == .final) = true := by decide +kernel

/-- LAST with 56 bytes runs two compressions (95_test_vectors.md section 8, P3). -/
theorem test_last_two_blocks : answers
    (exec (.last (asciiBytes "abcdbcdecdefdefgefghfghighijhijkijkljklmklmnlmnomnopnopq".toList)) State.reset) (fun t =>
      t.h == ⟨0x3853A012, 0x880C9C4A, 0x6CA005E4, 0x9AF4DC27, 0x2BEB62DA⟩ && t.len == 448) = true := by decide +kernel

theorem test_read_final : answers (exec .read finished) (fun t => t.responses.map (·.rdata.toList) ==
    [[0x8e, 0xb2, 0x08, 0xf7, 0xe0, 0x5d, 0x98, 0x7a, 0x9b, 0x04, 0x4a, 0x8e, 0x98, 0xc6, 0xb0, 0x87, 0xf1, 0x5a, 0x0b, 0xfc]]) = true := by
  decide +kernel

theorem test_read_early : answers (exec .read midMessage) (fun t => t.responses.map (·.rhdr) == [0x0C]) = true := by
  decide +kernel

theorem test_pack : answers (exec (.pack 0x78 0x56 0x34 0x12) midMessage) (fun t =>
    t.responses == [⟨0x09, 0x12345678, results []⟩] && t.registers == midMessage.registers) = true := by decide +kernel

theorem test_unpack : answers (exec (.unpack 0xDEADBEEF) broken) (fun t =>
    t.responses == [⟨0x39, 0, results [0xEF, 0xBE, 0xAD, 0xDE]⟩]) = true := by decide +kernel

/-! ### The step -/

/-- An illegal header in FINAL (30_encoding.md R34). -/
theorem test_step_illegal : answers (step { finished with inputs := [.command (cmd 0x0007)] }) (fun t =>
    t.responses == [⟨0x16, 0, results []⟩] && t.registers == finished.registers) = true := by decide +kernel

theorem test_step_reset_during : answers (step { broken with inputs := [.resetDuring (cmd 0x0002)] }) (fun t =>
    t == State.reset) = true := by decide +kernel

theorem test_withFetchWord : answers (step (State.reset.withFetchWord 16 0x0005)) (fun t =>
    t.inputs == [] && t.responses == [⟨0x01, 0, results []⟩]) = true := by decide +kernel

/-! ### Assembler lines (30_encoding.md R37, R38) -/

theorem test_parse_pack : parseLine "PACK 01, 02, 03, 04" = some (.command (.pack 1 2 3 4)) := by decide
theorem test_parse_unpack : parseLine "u32_to_u8s 0x12345678" = some (.command (.unpack 0x12345678)) := by decide
theorem test_parse_last : parseLine "LAST" = some (.command (.last [])) ∧
    parseLine "LAST \"abc\"" = some (.command (.last [0x61, 0x62, 0x63])) := by decide
theorem test_parse_hdr : parseLine ".hdr 0x0400" = some (.rawHeader 0x0400) := by decide
theorem test_assemble_digest : (assembleLine (.digest [0x61, 0x62, 0x63])).map (·.hdr) = [0x0001, 0x0033, 0x0004] := by decide

/-! ### Witnesses: one per obligation with hypotheses, one part per clause -/

/-- Every helper state meets the invariant, at the boundary values of each clause of 10_state.md R19. -/
theorem inv_midMessage : StateInv midMessage := by constructor <;> decide
theorem inv_roomForOne : StateInv roomForOne := by constructor <;> decide
theorem inv_atLimit : StateInv atLimit := by constructor <;> decide
theorem inv_finished : StateInv finished := by constructor <;> decide
theorem inv_finished_max : StateInv (engine .final (2 ^ 64 - 8)) := by constructor <;> decide
theorem inv_broken : StateInv broken := by constructor <;> decide
theorem inv_reset : StateInv State.reset := by constructor <;> decide

theorem witness_StepRunsDecodedCommand :
    ({ midMessage with inputs := [.command (cmd 0x0033), .reset] } : State).inputs = .command (cmd 0x0033) :: [.reset] ∧
    decode (cmd 0x0033) = .ok (.last [0, 1, 2]) := ⟨rfl, by decide⟩

theorem witness_DecodeFollowsHeaderFields :
    rsvOf (cmd 0xFFFF) ≠ 0 ∧ rsvOf (cmd 0x0400) ≠ 0 ∧ 7 ≤ opOf (cmd 0x0007) ∧ 7 ≤ opOf (cmd 0x000F) ∧
    (opOf (cmd 0x0010) ≠ 3 ∧ nOf (cmd 0x0010) ≠ 0) ∧
    (rsvOf (cmd 0x0003) = 0 ∧ opOf (cmd 0x0003) = 3 ∧ nOf (cmd 0x0003) = 0) ∧
    (rsvOf (cmd 0x03F3) = 0 ∧ opOf (cmd 0x03F3) = 3 ∧ nOf (cmd 0x03F3) = 63) ∧
    (∀ h ∈ [(0 : Nat), 1, 2, 4, 5, 6], rsvOf (cmd (BitVec.ofNat 16 h)) = 0 ∧ nOf (cmd (BitVec.ofNat 16 h)) = 0 ∧
      opOf (cmd (BitVec.ofNat 16 h)) = h) := by decide

theorem witness_OpcodeMapSelectsCommand :
    decode (cmd 0x03F3) = .ok (.last (countBlock.toList.take 63)) ∧
    (∃ r ∈ opcodeMap, r.selects (cmd 0x03F3).hdr = true) ∧ (List.replicate 63 (0 : Byte)).length ≤ 63 := by decide

theorem witness_DecodeEncodeRoundTrip :
    Instr.wellFormed (.last (List.replicate 63 0xAA)) = true ∧ Instr.wellFormed (.last []) = true ∧
    Instr.wellFormed (.block countBlock) = true := by decide

theorem witness_DecodedCommandReencodes : decode (cmd 0x03F3) = .ok (.last (countBlock.toList.take 63)) := by decide

theorem witness_IllegalHeaderRejected :
    BadHeader (cmd 0x8001) ∧ BadHeader (cmd 0x0008) ∧ BadHeader (cmd 0x03F6) ∧ ¬ BadHeader (cmd 0x03F3) ∧
    ({ broken with inputs := [.command (cmd 0x03F6)] } : State).inputs = .command (cmd 0x03F6) :: [] :=
  ⟨.inl (by decide), .inr (.inl (by decide)), .inr (.inr (by decide)),
   fun h => by rcases h with h | h | h <;> revert h <;> decide, rfl⟩

/-- Two LAST 3 commands that differ in W and in every byte after the third. -/
theorem witness_UnreadOperandsIgnored :
    (cmd 0x0033).hdr = (⟨0x0033, 0, Block.ofList [0, 1, 2]⟩ : Command).hdr ∧
    SameOperands (cmd 0x0033) ⟨0x0033, 0, Block.ofList [0, 1, 2]⟩ ∧ cmd 0x0033 ≠ ⟨0x0033, 0, Block.ofList [0, 1, 2]⟩ :=
  ⟨rfl, ⟨fun h => absurd h (by decide), fun _ k hk => by
    have : k < 3 := hk
    interval_cases k <;> decide, fun h => absurd h (by decide), fun h => absurd h (by decide)⟩, by decide⟩

theorem witness_PackResult : (cmd 0x0005).hdr = 0x0005 := rfl
theorem witness_UnpackResult : (cmd 0x0006).hdr = 0x0006 := rfl
theorem witness_WordsAndSerialiseLittleEndian : 15 < 16 ∧ 4 < 5 := by decide
theorem witness_BusByteNumbering : 63 < 64 ∧ 19 < 20 := by decide

/-- The last length with no zero byte, and the first that takes a further block. -/
theorem witness_PaddedMessage :
    8 * (List.replicate 55 (0x61 : Byte)).length ≤ 2 ^ 64 - 1 ∧ (List.replicate 55 (0x61 : Byte)).length % 64 = 55 ∧
    8 * (List.replicate 56 (0x61 : Byte)).length ≤ 2 ^ 64 - 1 ∧ 56 ≤ (List.replicate 56 (0x61 : Byte)).length % 64 := by decide

theorem witness_PaddingProperties :
    (List.replicate 55 (0x61 : Byte)).length % 64 ≤ 55 ∧ 56 ≤ (List.replicate 56 (0x61 : Byte)).length % 64 ∧
    8 * ([0x61] : List Byte).length ≤ 2 ^ 64 - 1 ∧ pad [0x61] = pad [0x61] := by decide

theorem witness_TailBlocks :
    ([] : List Byte).length ≤ 55 ∧ (List.replicate 55 (0 : Byte)).length ≤ 55 ∧
    (56 ≤ (List.replicate 56 (0 : Byte)).length ∧ (List.replicate 56 (0 : Byte)).length ≤ 63) ∧
    (56 ≤ (List.replicate 63 (0 : Byte)).length ∧ (List.replicate 63 (0 : Byte)).length ≤ 63) := by decide

theorem witness_RotationMovesBits : 0 < 1 ∧ 1 < 32 ∧ 0 < 31 ∧ 31 < 32 := by decide
theorem witness_MixingFunctions : 0 < 32 ∧ 31 < 32 := by decide
theorem witness_FunctionSelection : (0 : Fin 5).val + (4 : Fin 5).val = 4 ∧ (2 : Fin 5).val + (2 : Fin 5).val = 4 := by decide
theorem witness_SelectionTables : (4 : Fin 5).val = (3 : Fin 5).val + 1 ∧ selOf .right 4 15 = 11 := by decide

/-- The lines one after the other, and strictly alternating. -/
theorem witness_LineSchedulesAgree :
    ((List.replicate 80 Side.left ++ List.replicate 80 Side.right).count .left = 80 ∧
      (List.replicate 80 Side.left ++ List.replicate 80 Side.right).count .right = 80) ∧
    (((List.replicate 80 [Side.right, Side.left]).flatten).count .left = 80 ∧
      ((List.replicate 80 [Side.right, Side.left]).flatten).count .right = 80) := by
  decide +kernel

theorem witness_StatReportsOnly : (cmd 0x0000).hdr = 0x0000 := rfl

theorem witness_InitStartsMessage :
    (cmd 0x0001).hdr = 0x0001 ∧ (∃ t, exec .init midMessage = .next t) ∧
    (StateInv State.reset ∧ State.reset.phase = .init ∧ ∃ t, exec .init State.reset = .next t) ∧
    (broken.phase = .error ∧ ∃ t, exec .init broken = .next t ∧ t.phase ≠ .error) :=
  ⟨rfl, ⟨_, rfl⟩, ⟨inv_reset, rfl, ⟨_, rfl⟩⟩, rfl, ⟨_, rfl, by decide⟩⟩

theorem not_open_finished : ¬ Open finished := fun h => by rcases h with h | h <;> cases h
theorem not_open_broken : ¬ Open broken := fun h => by rcases h with h | h <;> cases h

theorem witness_BlockResult :
    (Open roomForOne ∧ roomForOne.len.toNat + 512 ≤ 2 ^ 64 - 1) ∧
    (Open State.reset ∧ State.reset.len.toNat + 512 ≤ 2 ^ 64 - 1) ∧
    (Open atLimit ∧ atLimit.len.toNat + 512 > 2 ^ 64 - 1) ∧ ¬ Open finished ∧ ¬ Open broken ∧
    (StateInv atLimit ∧ Open atLimit) ∧ (cmd 0x0002).hdr = 0x0002 :=
  ⟨⟨.inr rfl, by decide⟩, ⟨.inl rfl, by decide⟩, ⟨.inr rfl, by decide⟩,
   not_open_finished, not_open_broken, ⟨inv_atLimit, .inr rfl⟩, rfl⟩

theorem witness_LastResult :
    ((List.replicate 63 (0 : Byte)).length ≤ 63 ∧ StateInv atLimit ∧ Open atLimit) ∧
    (([] : List Byte).length ≤ 63 ∧ StateInv State.reset ∧ Open State.reset) ∧
    ¬ Open finished ∧ ¬ Open broken ∧ (cmd 0x03F3).hdr = BitVec.ofNat 16 (16 * 63 + 3) :=
  ⟨⟨by decide, inv_atLimit, .inr rfl⟩, ⟨by decide, inv_reset, .inl rfl⟩, not_open_finished, not_open_broken, by decide⟩

theorem witness_LastCountFits :
    (List.replicate 63 (0 : Byte)).length ≤ 63 ∧ StateInv atLimit ∧ Open atLimit ∧
    ∃ u, exec (.last (List.replicate 63 0)) atLimit = .next u := by
  obtain ⟨u, _, h, _⟩ := exec_effect (.last (List.replicate 63 0)) atLimit
  exact ⟨by decide, inv_atLimit, .inr rfl, u, h⟩

theorem witness_ReadResult :
    finished.phase = .final ∧ midMessage.phase ≠ .final ∧
    (∃ t, exec .read finished = .next t ∧ ∃ u, exec .read t = .next u) ∧ (cmd 0x0004).hdr = 0x0004 :=
  ⟨rfl, by decide, ⟨_, rfl, ⟨_, rfl⟩⟩, rfl⟩

theorem witness_ReadResult_abc : ∃ t u, exec (.last [0x61, 0x62, 0x63]) State.reset = .next t ∧ exec .read t = .next u := by
  obtain ⟨t, h, _⟩ := answers_next test_last_abc
  obtain ⟨u, _, hu, _⟩ := exec_effect .read t
  exact ⟨t, u, h, hu⟩

theorem witness_PhaseTransitions :
    (StateInv atLimit ∧ Instr.wellFormed (.block countBlock) = true) ∧
    (StateInv broken ∧ Instr.wellFormed (.last (List.replicate 63 0)) = true) ∧
    (StateInv State.reset ∧ State.reset.phase = .init) ∧
    (StateInv roomForOne ∧ roomForOne.phase = .proc ∧ roomForOne.len.toNat ≠ 2 ^ 64 - 512) ∧
    BadHeader (cmd 0x0400) ∧
    ({ finished with inputs := [.command (cmd 0x0400)] } : State).inputs = .command (cmd 0x0400) :: [] ∧
    ({ broken with inputs := [.reset] } : State).inputs = .reset :: [] :=
  ⟨⟨inv_atLimit, rfl⟩, ⟨inv_broken, by decide⟩, ⟨inv_reset, rfl⟩, ⟨inv_roomForOne, rfl, by decide⟩, .inl (by decide), rfl, rfl⟩

theorem witness_ProtocolRejections :
    finished.phase = .final ∧ broken.phase = .error ∧ State.reset.phase = .init ∧ midMessage.phase = .proc ∧
    (∃ t, exec (.block countBlock) finished = .next t) ∧ (∃ t, exec (.last [0x61]) finished = .next t) := by
  obtain ⟨t, _, h, _⟩ := exec_effect (.block countBlock) finished
  obtain ⟨u, _, h', _⟩ := exec_effect (.last [0x61]) finished
  exact ⟨rfl, rfl, rfl, rfl, ⟨t, h⟩, ⟨u, h'⟩⟩

theorem witness_OverflowRejected :
    (Open atLimit ∧ atLimit.len.toNat + 512 > 2 ^ 64 - 1) ∧ (StateInv atLimit ∧ Open atLimit) ∧
    (broken.phase = .error ∧
      ({ broken with inputs := [cmd 0x0002, cmd 0x0003, cmd 0x0004, cmd 0x0000].map .command } : State).inputs =
        [cmd 0x0002, cmd 0x0003, cmd 0x0004, cmd 0x0000].map .command ∧
      ∀ c ∈ [cmd 0x0002, cmd 0x0003, cmd 0x0004, cmd 0x0000], decode c ≠ .ok .init) :=
  ⟨⟨.inr rfl, by decide⟩, ⟨inv_atLimit, .inr rfl⟩, rfl, rfl, by decide⟩

theorem witness_CausePriority :
    ({ broken with inputs := [.command (cmd 0x0002)] } : State).inputs = .command (cmd 0x0002) :: [] := rfl

/-- One rejection of each cause. -/
theorem witness_RejectionsArePrecise :
    ({ atLimit with inputs := [.command (cmd 0x0002)] } : State).inputs = .command (cmd 0x0002) :: [] ∧
    causeOf (cmd 0x0002) { atLimit with inputs := [.command (cmd 0x0002)] } = 1 ∧
    causeOf (cmd 0x0002) { broken with inputs := [.command (cmd 0x0002)] } = 2 ∧
    causeOf (cmd 0x0002) { roomForOne with inputs := [.command (cmd 0x0002)] } = 0 ∧
    causeOf (cmd 0x0009) { finished with inputs := [.command (cmd 0x0009)] } = 3 := by decide

theorem witness_ResponseFields :
    ({ finished with inputs := [.command (cmd 0x0004)] } : State).inputs = .command (cmd 0x0004) :: [] ∧
    (decode (cmd 0x0004) = .ok .read ∧ finished.phase = .final) ∧ decode (cmd 0x0005) = .ok (.pack 0 1 2 3) ∧
    decode (cmd 0x0006) = .ok (.unpack 0x12345678) := by decide

theorem witness_StatusRegister :
    ({ broken with inputs := [.command (cmd 0x0000)] } : State).inputs = .command (cmd 0x0000) :: [] := rfl

theorem witness_ResetState : ∃ t, exec .init finished = .next t := ⟨_, rfl⟩

theorem witness_ResetEvent :
    ({ midMessage with inputs := [.reset] } : State).inputs = .reset :: [] ∧
    ({ midMessage with inputs := [.resetDuring (cmd 0x0002)] } : State).inputs = .resetDuring (cmd 0x0002) :: [] := ⟨rfl, rfl⟩

/-- The step that enters ERROR starts from a state that meets the invariant. -/
theorem witness_StepKeepsInvariant :
    StateInv { atLimit with inputs := [.command (cmd 0x0002)] } ∧
    ∃ t, step { atLimit with inputs := [.command (cmd 0x0002)] } = .next t ∧ (t.phase == .error) = true :=
  ⟨by constructor <;> decide, answers_next (p := fun t => t.phase == .error) (by decide +kernel)⟩

/-- A state two commands after reset, in FINAL. -/
theorem witness_ReachableStatesMeetInvariant : ∃ s, Reachable s ∧ (s.phase == .final) = true := by
  obtain ⟨t, h, hp⟩ := answers_next (o := Host.Core.run Sys2Proof.core 2
    (State.reset.present [.command (cmd 0x0001), .command (cmd 0x0003)])) (p := fun t => t.phase == .final) (by decide +kernel)
  exact ⟨t, ⟨_, 2, h⟩, hp⟩

theorem witness_ErrorFlagChanges :
    (∃ t, step { atLimit with inputs := [.command (cmd 0x0002)] } = .next t ∧ (t.err && !atLimit.err) = true) ∧
    (∃ t, step { broken with inputs := [.command (cmd 0x0001)] } = .next t ∧ (!t.err && broken.err) = true) ∧
    (∃ t, step { broken with inputs := [.resetDuring (cmd 0x0002)] } = .next t ∧ (!t.err && broken.err) = true) :=
  ⟨answers_next (p := fun t => t.err && !atLimit.err) (by decide +kernel),
   answers_next (p := fun t => !t.err && broken.err) (by decide +kernel),
   answers_next (p := fun t => !t.err && broken.err) (by decide +kernel)⟩

/-- One step of each kind that changes the digest state: reset, INIT, BLOCK, LAST 3, LAST 56. -/
theorem witness_DigestStateWriters :
    (∀ e ∈ [HostEvent.reset, .command (cmd 0x0001), .command (cmd 0x0002), .command (cmd 0x0033), .command (cmd 0x0383)],
      answers (step { midMessage with inputs := [e] }) (fun t => !(t.h == midMessage.h)) = true) := by decide +kernel

theorem witness_IdleEngineKeepsState : finished.inputs = [] := rfl

theorem witness_OneResponsePerCommandInOrder :
    ({ midMessage with inputs := [.command (cmd 0x0002), .command (cmd 0x0010), .reset] } : State).inputs =
      [cmd 0x0002, cmd 0x0010].map .command ++ [.reset] := rfl

theorem witness_RegistersDetermineBehaviour :
    finished.registers = ({ finished with responses := [⟨0x11, 0, results []⟩] } : State).registers ∧
    finished.inputs = ({ finished with responses := [⟨0x11, 0, results []⟩] } : State).inputs := ⟨rfl, rfl⟩

/-- Two open messages with different digest states and counts; and two at the limit. -/
theorem witness_PartialResultHidden :
    let s : State := { midMessage with inputs := [.command (cmd 0x0004)] }
    let s' : State := { roomForOne with h := DigestState.iv, inputs := [.command (cmd 0x0004)] }
    (s.inputs = .command (cmd 0x0004) :: [] ∧ s'.inputs = .command (cmd 0x0004) :: [] ∧ s.phase = s'.phase ∧ s.err = s'.err ∧
      s.responses = s'.responses ∧ s.phase ≠ .final ∧
      (s.len.toNat + 512 > 2 ^ 64 - 1 ↔ s'.len.toNat + 512 > 2 ^ 64 - 1) ∧ s.h ≠ s'.h ∧ s.len ≠ s'.len) ∧
    (atLimit.len.toNat + 512 > 2 ^ 64 - 1) := by decide

theorem witness_EnginesAreIndependent :
    0 ≠ 1 ∧ ∃ fs, stepEngine 0 [{ State.reset with inputs := [.command (cmd 0x0000)] }, finished] = .next fs ∧
      ∃ gs, stepEngine 1 fs = .next gs := ⟨by decide, _, rfl, _, rfl⟩

theorem witness_LengthFieldLittleEndian : 7 < 8 := by decide
theorem witness_DigestExpansion : Instr.last (List.replicate 63 0) ∈ expandDigest (List.replicate 63 0) := by decide

/-- One block, no block, and the longest message. -/
theorem witness_MaximumMessage :
    ∀ k ∈ [0, 1, 2 ^ 55 - 1],
      let s : State := { State.reset with inputs := (List.replicate k (cmd 0x0002)).map .command }
      s.phase = .init ∧ s.len = 0 ∧ s.err = false ∧ s.inputs = (List.replicate k (cmd 0x0002)).map .command ∧
      (∀ c ∈ List.replicate k (cmd 0x0002), ∃ d, decode c = .ok (.block d)) ∧
      (List.replicate k (cmd 0x0002)).length ≤ 2 ^ 55 - 1 := by
  intro k hk
  refine ⟨rfl, rfl, rfl, rfl, fun c hc => ?_, ?_⟩
  · rw [List.eq_of_mem_replicate hc]
    exact ⟨countBlock, test_decode_block⟩
  · rw [List.length_replicate]
    simp only [List.mem_cons, List.not_mem_nil, or_false] at hk
    omega

theorem witness_EngineComputesDigest :
    ([0x61, 0x62, 0x63] : List Byte).length ≤ 2 ^ 61 - 1 ∧
    ({ broken with inputs := (assembleLine (.digest [0x61, 0x62, 0x63])).map .command ++ [.reset] } : State).inputs =
      (assembleLine (.digest [0x61, 0x62, 0x63])).map .command ++ [.reset] := ⟨by decide, rfl⟩

/-- A READ between INIT and LAST, a stray LAST after LAST, and an illegal header. -/
theorem witness_PassiveCommandsInvisible :
    (∃ s t, s.inputs = [cmd 0x0001].map .command ++ .command (cmd 0x0004) :: [cmd 0x0033].map .command ∧
      Host.Core.run Sys2Proof.core [cmd 0x0001].length s = .next t ∧ Passive (cmd 0x0004) t) ∧
    Passive (cmd 0x0033) finished ∧ Passive (cmd 0x0007) midMessage :=
  ⟨⟨{ midMessage with inputs := [cmd 0x0001].map .command ++ .command (cmd 0x0004) :: [cmd 0x0033].map .command }, _, rfl, rfl,
    trivial⟩, .inl rfl, trivial⟩

end Sys2Proof.Tests
end

/-! STATUS in the response header (spec 10_state.md R15, 30_encoding.md R34). The key fact is that every command, accepted or
rejected, ends in `State.respond`: first the registers are written, then one header is built from them. -/

namespace Sys2Proof.Machine

/-- Every command ends by delivering one response from a state `u` that holds the registers as the command leaves them. -/
theorem exec_eq_respond (i : Instr) (s : State) :
    ∃ (u : State) (cause : Option Cause) (rw : Word) (rdata : List Byte),
      exec i s = .next (u.respond cause rw rdata) ∧ u.inputs = s.inputs ∧ u.responses = s.responses := by
  cases i with
  | stat => exact ⟨s, none, 0, [], rfl, rfl, rfl⟩
  | init => exact ⟨s.startMessage, none, 0, [], rfl, rfl, rfl⟩
  | block data =>
    rcases execBlock_cases data s with ⟨_, e⟩ | ⟨_, _, e⟩ | ⟨_, _, e⟩
    · exact ⟨s, some .protocol, 0, [], e, rfl, rfl⟩
    · exact ⟨s.breakMessage, some .inputTooLarge, 0, [], e, by simp, by simp⟩
    · exact ⟨s.absorbBlock data, none, 0, [], e, by simp, by simp⟩
  | last tail =>
    rcases execLast_cases tail s with ⟨_, e⟩ | ⟨_, e⟩
    · exact ⟨s, some .protocol, 0, [], e, rfl, rfl⟩
    · exact ⟨s.absorbTail tail, none, 0, [], e, by simp, by simp⟩
  | read =>
    rcases execRead_cases s with ⟨_, e⟩ | ⟨_, e⟩
    · exact ⟨s, none, 0, ser s.h, e, rfl, rfl⟩
    · exact ⟨s, some .protocol, 0, [], e, rfl, rfl⟩
  | pack b0 b1 b2 b3 => exact ⟨s, none, Machine.pack b0 b1 b2 b3, [], rfl, rfl, rfl⟩
  | unpack w => exact ⟨s, none, 0, unpackBytes w, rfl, rfl, rfl⟩

/-- A command record ends in a response too when its header spells no command (60_exceptions.md R83). -/
theorem takeCommand_eq_respond (c : Command) (s : State) :
    ∃ (u : State) (cause : Option Cause) (rw : Word) (rdata : List Byte),
      takeCommand c s = .next (u.respond cause rw rdata) ∧ u.inputs = s.inputs ∧ u.responses = s.responses := by
  rcases decode_total c with ⟨i, hi⟩ | ⟨e, he⟩
  · rw [takeCommand_ok hi]
    exact exec_eq_respond i s
  · exact ⟨s, some .illegal, 0, [], takeCommand_error he s, rfl, rfl⟩

theorem status_congr {s t : State} (hp : s.phase = t.phase) (he : s.err = t.err) : status s = status t := by
  rw [status, status, hp, he]

@[simp] theorem status_respond (s : State) (cause : Option Cause) (rw : Word) (rdata : List Byte) :
    status (s.respond cause rw rdata) = status s :=
  status_congr (State.respond_phase s cause rw rdata) (State.respond_err s cause rw rdata)

/-- The phase codes of the statements are those of the model (R13). -/
theorem phaseCode_toNat (p : Phase) : (phaseCode p).toNat = Spec.phaseNumber p := by
  cases p <;> rfl

/-- The step on a presented command delivers one response, whose header shows STATUS as the command leaves it (R15). -/
theorem step_command_shows_status {s : State} {c : Command} {rest : List HostEvent} (h : s.inputs = .command c :: rest) :
    ∃ t r, step s = .next t ∧ t.responses = s.responses ++ [r] ∧ r.rhdr.extractLsb' 3 3 = status t := by
  obtain ⟨u, cause, rw, rdata, htake, -, hresp⟩ := takeCommand_eq_respond c s.dropInput
  have hstep : step s = .next (u.respond cause rw rdata) := (step_cons h).trans htake
  refine ⟨u.respond cause rw rdata, ⟨rhdr cause u, rw, padTo 20 rdata⟩, hstep, ?_, ?_⟩
  · rw [State.respond_responses, hresp, State.dropInput_responses]
  · rw [status_respond]
    exact rhdr_status cause u

end Sys2Proof.Machine

namespace Sys2Proof

open Sys2Proof.Machine

/-- Settles O42: the number is `status_toNat`, and the header of the one response is `rhdr` of the registers after the command,
whose bits 5:3 are STATUS by `rhdr_status`. -/
theorem statusRegister : Obligations.StatusRegister := by
  unfold Obligations.StatusRegister
  refine ⟨fun s => ?_, fun _ _ _ h => step_command_shows_status h, by decide⟩
  rw [status_toNat, phaseCode_toNat]

end Sys2Proof

/-! Bytes on the flat data buses (spec 20_memory.md R22). The key fact is that the bytes are the base-256 digits of the bus value
(`busValue_digit`), and that a bus as wide as the bytes loses none of it (`busValue_lt`). -/

namespace Sys2Proof.Machine

/-- A bus wide enough for all the bytes carries byte `i` in bits 8i+7 to 8i. -/
theorem extractLsb'_busValue {w : Nat} {bs : List Byte} {i : Nat} (hw : 8 * bs.length ≤ w) (h : i < bs.length) :
    (BitVec.ofNat w (busValue bs)).extractLsb' (8 * i) 8 = bs[i] := by
  have hfits : busValue bs < 2 ^ w := (busValue_lt bs).trans_le (Nat.pow_le_pow_right Nat.two_pos hw)
  apply BitVec.eq_of_toNat_eq
  rw [BitVec.extractLsb'_toNat, BitVec.toNat_ofNat, Nat.mod_eq_of_lt hfits, Nat.shiftRight_eq_div_pow]
  exact busValue_digit bs i h

theorem cmdData_byte (c : Command) {i : Nat} (h : i < 64) : (cmdData c).extractLsb' (8 * i) 8 = c.data[i] := by
  rw [cmdData, extractLsb'_busValue (by simp) (by simpa using h), Vector.getElem_toList]

theorem rspData_byte (r : Response) {i : Nat} (h : i < 20) : (rspData r).extractLsb' (8 * i) 8 = r.rdata[i] := by
  rw [rspData, extractLsb'_busValue (by simp) (by simpa using h), Vector.getElem_toList]

/-- The engine reads from the bus the operand that the command put on it. -/
theorem dataOfBus_cmdData (c : Command) : dataOfBus (cmdData c) = c.data := by
  ext i hi : 1
  rw [dataOfBus, Vector.getElem_ofFn, cmdData_byte c hi]

end Sys2Proof.Machine

namespace Sys2Proof

open Sys2Proof.Machine

/-- Settles O13: both buses carry the base-256 digits of `busValue`, so byte `i` of each is its bits 8i+7:8i, and reading the command
bus byte by byte gives the data operand back. -/
theorem busByteNumbering : Obligations.BusByteNumbering := by
  unfold Obligations.BusByteNumbering
  exact ⟨fun c _ h => cmdData_byte c h, fun r _ h => rspData_byte r h, dataOfBus_cmdData⟩

end Sys2Proof

/-! Which headers spell a command, and which operands it reads (spec 30_encoding.md R31 to R36). The key facts are one equation of
the decoder's row per operation code, and that `decode` looks at the header's three fields before it looks at anything else. -/

namespace Sys2Proof

open Sys2Proof.Machine Sys2Proof.Spec

/-! ### The decoder's row, one equation per operation code (R33) -/

theorem decodeRow_of_op_zero {c : Command} (h : opOf c = 0) : decodeRow c = some .stat := by
  simp only [decodeRow_eq, show c.hdr.toNat % 16 = 0 from h]

theorem decodeRow_of_op_one {c : Command} (h : opOf c = 1) : decodeRow c = some .init := by
  simp only [decodeRow_eq, show c.hdr.toNat % 16 = 1 from h]

theorem decodeRow_of_op_two {c : Command} (h : opOf c = 2) : decodeRow c = some (.block c.data) := by
  simp only [decodeRow_eq, show c.hdr.toNat % 16 = 2 from h]

theorem decodeRow_of_op_three {c : Command} (h : opOf c = 3) : decodeRow c = some (.last (c.dataBytes (nOf c))) := by
  simp only [decodeRow_eq, show c.hdr.toNat % 16 = 3 from h, nOf]

theorem decodeRow_of_op_four {c : Command} (h : opOf c = 4) : decodeRow c = some .read := by
  simp only [decodeRow_eq, show c.hdr.toNat % 16 = 4 from h]

theorem decodeRow_of_op_five {c : Command} (h : opOf c = 5) :
    decodeRow c = some (.pack c.data[0] c.data[1] c.data[2] c.data[3]) := by
  simp only [decodeRow_eq, show c.hdr.toNat % 16 = 5 from h]

theorem decodeRow_of_op_six {c : Command} (h : opOf c = 6) : decodeRow c = some (.unpack c.w) := by
  simp only [decodeRow_eq, show c.hdr.toNat % 16 = 6 from h]

theorem decodeRow_of_reserved_op {c : Command} (h : 7 ≤ opOf c) : decodeRow c = none := by
  have hop : 7 ≤ c.hdr.toNat % 16 := h
  rw [decodeRow_eq]
  split
  case h_8 => rfl
  all_goals omega

theorem op_cases (c : Command) :
    opOf c = 0 ∨ opOf c = 1 ∨ opOf c = 2 ∨ opOf c = 3 ∨ opOf c = 4 ∨ opOf c = 5 ∨ opOf c = 6 ∨ 7 ≤ opOf c := by
  omega

theorem exists_decodeRow_iff (c : Command) : (∃ i, decodeRow c = some i) ↔ opOf c < 7 := by
  constructor
  · rintro ⟨i, hi⟩
    by_contra hop
    simp [decodeRow_of_reserved_op (Nat.le_of_not_lt hop)] at hi
  · intro hop
    rcases op_cases c with h | h | h | h | h | h | h | h
    · exact ⟨_, decodeRow_of_op_zero h⟩
    · exact ⟨_, decodeRow_of_op_one h⟩
    · exact ⟨_, decodeRow_of_op_two h⟩
    · exact ⟨_, decodeRow_of_op_three h⟩
    · exact ⟨_, decodeRow_of_op_four h⟩
    · exact ⟨_, decodeRow_of_op_five h⟩
    · exact ⟨_, decodeRow_of_op_six h⟩
    · omega

/-! ### Legal headers (R35, R36) -/

/-- The row's command is decoded when the header passes the checks of R35. -/
theorem decode_of_decodeRow {c : Command} {i : Instr} (hrsv : rsvOf c = 0) (hn : opOf c = 3 ∨ nOf c = 0)
    (hrow : decodeRow c = some i) : decode c = .ok i :=
  (decode_eq_ok_iff c i).mpr ⟨hrsv, hrow, hn⟩

theorem exists_decode_ok_iff (c : Command) : (∃ i, decode c = .ok i) ↔ ¬ BadHeader c := by
  have hlegal : ¬ BadHeader c ↔ rsvOf c = 0 ∧ opOf c < 7 ∧ (opOf c = 3 ∨ nOf c = 0) := by
    unfold BadHeader
    omega
  rw [hlegal, ← exists_decodeRow_iff]
  constructor
  · rintro ⟨i, hi⟩
    obtain ⟨hrsv, hrow, hn⟩ := (decode_eq_ok_iff c i).mp hi
    exact ⟨hrsv, ⟨i, hrow⟩, hn⟩
  · rintro ⟨hrsv, ⟨i, hrow⟩, hn⟩
    exact ⟨i, decode_of_decodeRow hrsv hn hrow⟩

/-- A record fails to decode exactly when its header spells no command (R36). -/
theorem exists_decode_error_iff (c : Command) : (∃ e, decode c = .error e) ↔ BadHeader c := by
  rw [← not_iff_not, ← exists_decode_ok_iff]
  cases decode c <;> simp

/-- The headers that spell a command, as numbers (R35). -/
def legalHeader (h : Nat) : Bool := h / 1024 == 0 && decide (h % 16 < 7) && (h % 16 == 3 || h / 16 % 64 == 0)

/-- Whether a header decodes is a matter of the header alone. -/
theorem decode_isOk (c : Command) : (decode c).isOk = legalHeader c.hdr.toNat := by
  have hok : (decode c).isOk = true ↔ ∃ i, decode c = .ok i := by
    cases decode c <;> simp [Except.isOk, Except.toBool]
  rw [Bool.eq_iff_iff, hok, exists_decode_ok_iff]
  simp only [legalHeader, BadHeader, rsvOf, opOf, nOf, Bool.and_eq_true, Bool.or_eq_true, beq_iff_eq, decide_eq_true_eq]
  omega

/-- Of the 65536 headers, 70 are legal: they all lie below 1024, where RSV is zero. -/
theorem countP_legalHeader : (List.range 65536).countP legalHeader = 70 := by
  have hlow : (List.range 1024).countP legalHeader = 70 := by decide +kernel
  have hhigh : ((List.range 64512).map (1024 + ·)).countP legalHeader = 0 := by
    rw [List.countP_eq_zero]
    intro h hmem
    obtain ⟨k, -, rfl⟩ := List.mem_map.mp hmem
    simp [legalHeader]
  rw [show 65536 = 1024 + 64512 from rfl, List.range_add, List.countP_append, hlow, hhigh]

theorem countP_decode_isOk (w : Word) (data : Block) :
    (List.range 65536).countP (fun h => (decode ⟨BitVec.ofNat 16 h, w, data⟩).isOk) = 70 := by
  rw [← countP_legalHeader]
  apply List.countP_congr
  intro h hmem
  have hlt : h < 2 ^ 16 := List.mem_range.mp hmem
  rw [decode_isOk, BitVec.toNat_ofNat, Nat.mod_eq_of_lt hlt]

/-! ### The opcode map (R33) -/

/-- The mask of the row of LAST clears N and keeps the fields RSV and OP. -/
theorem and_lastMask_toNat (c : Command) : (c.hdr &&& 0xFC0F).toNat = 1024 * rsvOf c + opOf c := by
  have hfields : c.hdr &&& 0xFC0F = (c.rsv ++ (0 : BitVec 6)) ++ c.op := by
    apply BitVec.eq_of_getLsbD_eq
    intro i hi
    simp only [Command.rsv, Command.op, BitVec.getLsbD_and, BitVec.getLsbD_append, BitVec.getLsbD_extractLsb']
    interval_cases i <;> simp
  rw [hfields, BitVec.toNat_append, BitVec.toNat_append, ← Nat.shiftLeft_add_eq_or_of_lt c.op.isLt, rsv_toNat, op_toNat]
  simp only [Nat.shiftLeft_eq, rsvOf, opOf, BitVec.ofNat_eq_ofNat, BitVec.toNat_ofNat, Nat.zero_mod, Nat.or_zero]
  omega

/-- The rows are of two kinds: LAST ignores N, every other row fixes the whole header. -/
theorem opcodeMap_mask : ∀ r ∈ opcodeMap,
    (r.mask = 0xFFFF ∧ r.value.toNat < 7 ∧ r.value.toNat ≠ 3) ∨ (r.mask = 0xFC0F ∧ r.value = 3) := by decide

theorem opcodeMap_value_injective :
    ∀ r ∈ opcodeMap, ∀ r' ∈ opcodeMap, r'.value.toNat = r.value.toNat → r' = r := by decide

theorem exists_row_with_value : ∀ k < 7, ∃ r ∈ opcodeMap, r.value.toNat = k := by decide

/-- A header selects a row of the map exactly when it is legal and its operation code is the row's. -/
theorem selects_iff {r : OpRow} (hr : r ∈ opcodeMap) (c : Command) :
    r.selects c.hdr = true ↔ rsvOf c = 0 ∧ opOf c = r.value.toNat ∧ (opOf c = 3 ∨ nOf c = 0) := by
  rw [OpRow.selects, beq_iff_eq, ← BitVec.toNat_inj]
  rcases opcodeMap_mask r hr with ⟨hmask, hlt, hne⟩ | ⟨hmask, hvalue⟩
  · have hwhole : c.hdr &&& 0xFFFF = c.hdr := BitVec.and_allOnes
    rw [hmask, hwhole]
    unfold rsvOf opOf nOf
    omega
  · have hop : opOf c < 16 := Nat.mod_lt _ (by decide)
    have hthree : (3 : BitVec 16).toNat = 3 := rfl
    rw [hmask, hvalue, and_lastMask_toNat, hthree]
    omega

/-- A row of the map names the command that its operation code decodes to. -/
theorem decodeRow_of_row {r : OpRow} (hr : r ∈ opcodeMap) {c : Command} (hop : opOf c = r.value.toNat) :
    ∃ i, decodeRow c = some i ∧ i.mnemonic = r.mnemonic ∧ i.format = r.format := by
  simp only [opcodeMap, List.mem_cons, List.not_mem_nil, or_false] at hr
  rcases hr with rfl | rfl | rfl | rfl | rfl | rfl | rfl
  · exact ⟨_, decodeRow_of_op_zero hop, rfl, rfl⟩
  · exact ⟨_, decodeRow_of_op_one hop, rfl, rfl⟩
  · exact ⟨_, decodeRow_of_op_two hop, rfl, rfl⟩
  · exact ⟨_, decodeRow_of_op_three hop, rfl, rfl⟩
  · exact ⟨_, decodeRow_of_op_four hop, rfl, rfl⟩
  · exact ⟨_, decodeRow_of_op_five hop, rfl, rfl⟩
  · exact ⟨_, decodeRow_of_op_six hop, rfl, rfl⟩

/-- A header that selects a row decodes to that row's command. -/
theorem decode_of_selects {r : OpRow} (hr : r ∈ opcodeMap) {c : Command} (hsel : r.selects c.hdr = true) :
    ∃ i, decode c = .ok i ∧ i.mnemonic = r.mnemonic ∧ i.format = r.format := by
  obtain ⟨hrsv, hop, hn⟩ := (selects_iff hr c).mp hsel
  obtain ⟨i, hrow, hnames⟩ := decodeRow_of_row hr hop
  exact ⟨i, decode_of_decodeRow hrsv hn hrow, hnames⟩

/-- No header selects two rows: their operation codes differ. -/
theorem selects_unique {r r' : OpRow} (hr : r ∈ opcodeMap) (hr' : r' ∈ opcodeMap) {c : Command}
    (hsel : r.selects c.hdr = true) (hsel' : r'.selects c.hdr = true) : r' = r := by
  obtain ⟨-, hop, -⟩ := (selects_iff hr c).mp hsel
  obtain ⟨-, hop', -⟩ := (selects_iff hr' c).mp hsel'
  exact opcodeMap_value_injective r hr r' hr' (hop'.symm.trans hop)

/-- A header that decodes selects a row, and the row is that of its command. -/
theorem exists_selects_of_decode {c : Command} {i : Instr} (h : decode c = .ok i) :
    ∃ r ∈ opcodeMap, r.selects c.hdr = true ∧ r.mnemonic = i.mnemonic ∧ r.format = i.format := by
  obtain ⟨hrsv, hrow, hn⟩ := (decode_eq_ok_iff c i).mp h
  obtain ⟨r, hr, hvalue⟩ := exists_row_with_value (opOf c) ((exists_decodeRow_iff c).mp ⟨i, hrow⟩)
  have hsel : r.selects c.hdr = true := (selects_iff hr c).mpr ⟨hrsv, hvalue.symm, hn⟩
  obtain ⟨j, hj, hmnemonic, hformat⟩ := decode_of_selects hr hsel
  obtain rfl : j = i := Except.ok.inj (hj.symm.trans h)
  exact ⟨r, hr, hsel, hmnemonic.symm, hformat.symm⟩

/-- Settles O3: a row is selected exactly by the legal headers with its operation code (`selects_iff`), the seven rows have different
operation codes, and the decoder goes by the operation code too. -/
theorem opcodeMapSelectsCommand : Obligations.OpcodeMapSelectsCommand := by
  unfold Obligations.OpcodeMapSelectsCommand
  refine ⟨by decide, fun c i h => ?_, fun c r hr hsel => decode_of_selects hr hsel, fun t ht => ?_⟩
  · obtain ⟨r, hr, hsel, hmnemonic, hformat⟩ := exists_selects_of_decode h
    exact ⟨r, hr, hsel, hmnemonic, hformat, fun r' hr' hsel' => selects_unique hr hr' hsel hsel'⟩
  · apply BitVec.eq_of_toNat_eq
    rw [encodeHeader_last_toNat t ht, BitVec.toNat_ofNat, Nat.mod_eq_of_lt (by omega)]

/-- Settles O2: the illegal headers are those of `BadHeader`, a legal one decodes to the row of its operation code, and the legal
headers, which depend on neither W nor DATA, are counted. -/
theorem decodeFollowsHeaderFields : Obligations.DecodeFollowsHeaderFields := by
  unfold Obligations.DecodeFollowsHeaderFields
  refine ⟨fun c => ⟨fun hrsv => ?_, fun hop => ?_, fun hop hn => ?_, fun hrsv hop => ?_, fun hrsv hn => ?_⟩, countP_decode_isOk⟩
  · exact (exists_decode_error_iff c).mpr (.inl hrsv)
  · exact (exists_decode_error_iff c).mpr (.inr (.inl hop))
  · exact (exists_decode_error_iff c).mpr (.inr (.inr ⟨hop, hn⟩))
  · exact decode_of_decodeRow hrsv (.inl hop) (decodeRow_of_op_three hop)
  · have hdec {i : Instr} (hrow : decodeRow c = some i) : decode c = .ok i := decode_of_decodeRow hrsv (.inr hn) hrow
    exact ⟨fun h => hdec (decodeRow_of_op_zero h), fun h => hdec (decodeRow_of_op_one h), fun h => hdec (decodeRow_of_op_two h),
      fun h => hdec (decodeRow_of_op_four h), fun h => hdec (decodeRow_of_op_five h), fun h => hdec (decodeRow_of_op_six h)⟩

/-! ### Operands no format reads (R32) -/

/-- The bytes of two commands agree as arrays where they agree as lists. -/
theorem data_getElem_congr {c d : Command} {k : Nat} (hk : k < 64) (h : c.data.toList[k]? = d.data.toList[k]?) :
    c.data[k] = d.data[k] := by
  simpa [hk] using h

theorem dataBytes_congr {c d : Command} {n : Nat} (h : ∀ k, k < n → c.data.toList[k]? = d.data.toList[k]?) :
    c.dataBytes n = d.dataBytes n := by
  unfold Command.dataBytes
  apply List.ext_getElem?
  intro k
  rw [List.getElem?_take, List.getElem?_take]
  split
  · next hk => exact h k hk
  · rfl

/-- The row's command is the same for two records that agree on what its format reads. -/
theorem decodeRow_congr {c d : Command} (hhdr : c.hdr = d.hdr) (hsame : SameOperands c d) : decodeRow c = decodeRow d := by
  obtain ⟨hblock, hlast, hpack, hunpack⟩ := hsame
  have hop : opOf d = opOf c := by rw [opOf, opOf, hhdr]
  have hn : nOf d = nOf c := by rw [nOf, nOf, hhdr]
  rcases op_cases c with h | h | h | h | h | h | h | h
  · rw [decodeRow_of_op_zero h, decodeRow_of_op_zero (hop.trans h)]
  · rw [decodeRow_of_op_one h, decodeRow_of_op_one (hop.trans h)]
  · rw [decodeRow_of_op_two h, decodeRow_of_op_two (hop.trans h), hblock h]
  · rw [decodeRow_of_op_three h, decodeRow_of_op_three (hop.trans h), hn, dataBytes_congr (hlast h)]
  · rw [decodeRow_of_op_four h, decodeRow_of_op_four (hop.trans h)]
  · have hbyte (k : Nat) (hk : k < 4) : c.data[k] = d.data[k] := data_getElem_congr (by omega) (hpack h k hk)
    rw [decodeRow_of_op_five h, decodeRow_of_op_five (hop.trans h), hbyte 0 (by decide), hbyte 1 (by decide),
      hbyte 2 (by decide), hbyte 3 (by decide)]
  · rw [decodeRow_of_op_six h, decodeRow_of_op_six (hop.trans h), hunpack h]
  · rw [decodeRow_of_reserved_op h, decodeRow_of_reserved_op (h.trans_eq hop.symm)]

/-- `decode` reads the header and the row's command, nothing else of the record. -/
theorem decode_congr {c d : Command} (hhdr : c.hdr = d.hdr) (hrow : decodeRow c = decodeRow d) : decode c = decode d := by
  have hrsv : c.rsv = d.rsv := by rw [Command.rsv, hhdr, Command.rsv]
  have hop : c.op = d.op := by rw [Command.op, hhdr, Command.op]
  have hn : c.n = d.n := by rw [Command.n, hhdr, Command.n]
  rw [decode, decode, hrsv, hop, hn, hrow]

theorem takeCommand_congr {c d : Command} (h : decode c = decode d) (s : State) : takeCommand c s = takeCommand d s := by
  rw [takeCommand, takeCommand, h]

/-- Settles O8: such records decode alike (`decodeRow_congr`), and the step reads a record only through `decode`. -/
theorem unreadOperandsIgnored : Obligations.UnreadOperandsIgnored := by
  unfold Obligations.UnreadOperandsIgnored
  intro s c d rest hhdr hsame
  exact takeCommand_congr (decode_congr hhdr (decodeRow_congr hhdr hsame)) { s with inputs := rest }

end Sys2Proof

/-! The fields of every response (spec 30_encoding.md R34). The key fact is `takeCommand_response`: the one response of a command is
built from the registers as the command leaves them, with the cause of the fixed order (60_exceptions.md R84) and with the results
that R34 gives to PACK, UNPACK and READ. -/

namespace Sys2Proof.Machine

/-! ### What R34 assigns to the result fields -/

/-- RW: the PACK result, else zero. -/
def wordResult : Except Illegal Instr → Word
  | .ok (.pack b0 b1 b2 b3) => pack b0 b1 b2 b3
  | _ => 0

/-- RDATA without its zeros: the digest for a READ in FINAL, the four bytes for UNPACK, else nothing. -/
def byteResult (s : State) : Except Illegal Instr → List Byte
  | .ok .read => if s.phase = .final then ser s.h else []
  | .ok (.unpack w) => unpackBytes w
  | _ => []

theorem wordResult_of_not_pack {d : Except Illegal Instr} (h : ∀ b0 b1 b2 b3, d ≠ .ok (.pack b0 b1 b2 b3)) :
    wordResult d = 0 := by
  unfold wordResult
  split
  · next b0 b1 b2 b3 => exact absurd rfl (h b0 b1 b2 b3)
  · rfl

theorem byteResult_read {s : State} (h : s.phase = .final) : byteResult s (.ok .read) = ser s.h := if_pos h

theorem byteResult_of_neither {s : State} {d : Except Illegal Instr} (hread : d ≠ .ok .read ∨ s.phase ≠ .final)
    (hunpack : ∀ w, d ≠ .ok (.unpack w)) : byteResult s d = [] := by
  unfold byteResult
  split
  · exact if_neg (hread.resolve_left (not_not_intro rfl))
  · next w => exact absurd rfl (hunpack w)
  · rfl

/-- The model pads result bytes as the statements do. -/
theorem padTo_eq_results (l : List Byte) : padTo 20 l = Spec.results l := by
  ext i hi : 1
  rw [padTo_getElem, Spec.results, Vector.getElem_ofFn]

/-! ### The cause (60_exceptions.md R84) -/

theorem causeOf_block {c : Command} {b : Block} (h : decode c = .ok (.block b)) (s : State) :
    Spec.causeOf c s = if s.closed then 2 else if s.full then 1 else 0 := by
  have hfull : s.len.toNat + 512 > 2 ^ 64 - 1 ↔ s.full = true := by
    rw [full_iff]
    omega
  simp only [Spec.causeOf, h, closed_iff, hfull]

theorem causeOf_last {c : Command} {l : List Byte} (h : decode c = .ok (.last l)) (s : State) :
    Spec.causeOf c s = if s.closed then 2 else 0 := by
  simp only [Spec.causeOf, h, closed_iff]

theorem causeOf_read {c : Command} (h : decode c = .ok .read) (s : State) :
    Spec.causeOf c s = if s.phase = .final then 0 else 2 := by
  simp only [Spec.causeOf, h]

theorem causeCode_eq_zero_iff (cause : Option Cause) : (causeCode cause).toNat = 0 ↔ cause.isNone.toNat = 1 := by
  rcases cause with _ | _ | _ | _ <;> decide

/-! ### The one response of a command -/

/-- Every command ends by delivering one response from a state `u` that holds the registers as the command leaves them; its cause
and its results are those of the rules. -/
theorem takeCommand_response (c : Command) (s : State) :
    ∃ (u : State) (cause : Option Cause),
      takeCommand c s = .next (u.respond cause (wordResult (decode c)) (byteResult s (decode c))) ∧
      u.inputs = s.inputs ∧ u.responses = s.responses ∧ (causeCode cause).toNat = Spec.causeOf c s := by
  cases hd : decode c with
  | error e => exact ⟨s, some .illegal, takeCommand_error hd s, rfl, rfl, by simp [Spec.causeOf, hd, causeCode]⟩
  | ok i =>
    rw [takeCommand_ok hd]
    cases i with
    | stat => exact ⟨s, none, rfl, rfl, rfl, by simp [Spec.causeOf, hd, causeCode]⟩
    | init => exact ⟨s.startMessage, none, rfl, rfl, rfl, by simp [Spec.causeOf, hd, causeCode]⟩
    | block data =>
      rw [causeOf_block hd]
      rcases execBlock_cases data s with ⟨hc, e⟩ | ⟨hc, hf, e⟩ | ⟨hc, hf, e⟩
      · exact ⟨s, some .protocol, e, rfl, rfl, by simp [hc, causeCode]⟩
      · exact ⟨s.breakMessage, some .inputTooLarge, e, by simp, by simp, by simp [hc, hf, causeCode]⟩
      · exact ⟨s.absorbBlock data, none, e, by simp, by simp, by simp [hc, hf, causeCode]⟩
    | last tail =>
      rw [causeOf_last hd]
      rcases execLast_cases tail s with ⟨hc, e⟩ | ⟨hc, e⟩
      · exact ⟨s, some .protocol, e, rfl, rfl, by simp [hc, causeCode]⟩
      · exact ⟨s.absorbTail tail, none, e, by simp, by simp, by simp [hc, causeCode]⟩
    | read =>
      rw [causeOf_read hd, byteResult]
      rcases execRead_cases s with ⟨hp, e⟩ | ⟨hp, e⟩
      · exact ⟨s, none, by rw [if_pos hp]; exact e, rfl, rfl, by simp [hp, causeCode]⟩
      · exact ⟨s, some .protocol, by rw [if_neg hp]; exact e, rfl, rfl, by simp [hp, causeCode]⟩
    | pack b0 b1 b2 b3 => exact ⟨s, none, rfl, rfl, rfl, by simp [Spec.causeOf, hd, causeCode]⟩
    | unpack w => exact ⟨s, none, rfl, rfl, rfl, by simp [Spec.causeOf, hd, causeCode]⟩

/-- The header taken apart by the bit positions of R34. -/
theorem rhdr_fields (cause : Option Cause) (s : State) :
    (rhdr cause s).toNat / 64 = 0 ∧ (rhdr cause s).toNat / 32 % 2 = s.err.toNat ∧
    (rhdr cause s).toNat / 8 % 4 = Spec.phaseNumber s.phase ∧ (rhdr cause s).toNat / 2 % 4 = (causeCode cause).toNat ∧
    ((rhdr cause s).toNat % 2 = 1 ↔ (causeCode cause).toNat = 0) := by
  have herr : s.err.toNat ≤ 1 := Bool.toNat_le s.err
  have hphase : (phaseCode s.phase).toNat < 4 := (phaseCode s.phase).isLt
  have hcause : (causeCode cause).toNat < 4 := (causeCode cause).isLt
  have hack : cause.isNone.toNat ≤ 1 := Bool.toNat_le cause.isNone
  rw [causeCode_eq_zero_iff, ← phaseCode_toNat, rhdr_toNat]
  omega

/-- The step on a presented command delivers one response, built as R34 says. -/
theorem step_command_response {s : State} {c : Command} {rest : List HostEvent} (h : s.inputs = .command c :: rest) :
    ∃ (u : State) (cause : Option Cause),
      step s = .next (u.respond cause (wordResult (decode c)) (byteResult s (decode c))) ∧
      u.inputs = rest ∧ u.responses = s.responses ∧ (causeCode cause).toNat = Spec.causeOf c s := by
  obtain ⟨u, cause, htake, hinputs, hresponses, hcause⟩ := takeCommand_response c s.dropInput
  refine ⟨u, cause, (step_cons h).trans htake, ?_, hresponses, hcause⟩
  rw [hinputs, State.dropInput_inputs, h, List.tail_cons]

end Sys2Proof.Machine

namespace Sys2Proof

open Sys2Proof.Machine

/-- Settles O41: the response is `rhdr` of the registers after the command and of the cause, taken apart by `rhdr_fields`, with the
results of `wordResult` and `byteResult`. -/
theorem responseFields : Obligations.ResponseFields := by
  unfold Obligations.ResponseFields
  refine ⟨fun s c rest h => ?_, by decide⟩
  obtain ⟨u, cause, hstep, -, hresponses, hcause⟩ := step_command_response h
  obtain ⟨hzero, herr, hphase, hcode, hack⟩ := rhdr_fields cause u
  rw [hcause] at hcode hack
  refine ⟨_, ⟨rhdr cause u, wordResult (decode c), padTo 20 (byteResult s (decode c))⟩, hstep, ?_,
    hzero, herr, hphase, hcode, hack, ?_, wordResult_of_not_pack, ?_, ?_, ?_⟩
  · rw [State.respond_responses, hresponses]
  · intro b0 b1 b2 b3 hd
    rw [hd, wordResult]
  · intro hd hfinal
    rw [hd, byteResult_read hfinal, padTo_eq_results]
  · intro w hd
    rw [hd, byteResult, padTo_eq_results, unpackBytes]
  · intro hread hunpack
    rw [byteResult_of_neither hread hunpack, padTo_eq_results]

end Sys2Proof

/-! The codec commands and the sequence helpers (spec 40_codec.md R40, R41, R44). The key facts are that the answers of the statements
are the model's own responses (`State.respond_eq_answered`), and that PACK lays its bytes side by side (`pack_eq_append`), so that
UNPACK finds each of them again. -/

namespace Sys2Proof.Machine

/-! ### The response without a register written -/

/-- The model's response header is that of the statements (R34). -/
theorem rhdr_eq_header (cause : Option Cause) (s : State) :
    rhdr cause s = Spec.header s.err s.phase (causeCode cause).toNat := by
  unfold rhdr
  cases s.err <;> cases s.phase <;> rcases cause with _ | _ | _ | _ <;> decide

/-- A response alone writes no register. -/
theorem State.respond_eq_answered (s : State) (cause : Option Cause) (rw : Word) (rdata : List Byte) :
    s.respond cause rw rdata = Spec.answered s (causeCode cause).toNat rw rdata := by
  rw [State.respond, rhdr_eq_header, padTo_eq_results, Spec.answered, Spec.after]

theorem exec_pack (b0 b1 b2 b3 : Byte) (s : State) :
    exec (.pack b0 b1 b2 b3) s = .next (Spec.answered s 0 (pack b0 b1 b2 b3) []) :=
  congrArg Host.Outcome.next (s.respond_eq_answered none (pack b0 b1 b2 b3) [])

theorem exec_unpack (w : Word) (s : State) : exec (.unpack w) s = .next (Spec.answered s 0 0 (unpackBytes w)) :=
  congrArg Host.Outcome.next (s.respond_eq_answered none 0 (unpackBytes w))

/-! ### The bytes of a word -/

/-- UNPACK gives back the bytes that PACK laid side by side (R42). -/
theorem unpack_pack (b0 b1 b2 b3 : Byte) : unpack (pack b0 b1 b2 b3) = (b0, b1, b2, b3) := by
  rw [pack_eq_append, unpack]
  have h0 : (b3 ++ b2 ++ b1 ++ b0).extractLsb' 0 8 = b0 := BitVec.extractLsb'_append_eq_right
  have h1 : (b3 ++ b2 ++ b1 ++ b0).extractLsb' 8 8 = b1 := by
    rw [BitVec.extractLsb'_append_eq_of_le (by decide)]
    exact BitVec.extractLsb'_append_eq_right
  have h2 : (b3 ++ b2 ++ b1 ++ b0).extractLsb' 16 8 = b2 := by
    rw [BitVec.extractLsb'_append_eq_of_le (by decide), BitVec.extractLsb'_append_eq_of_le (by decide)]
    exact BitVec.extractLsb'_append_eq_right
  have h3 : (b3 ++ b2 ++ b1 ++ b0).extractLsb' 24 8 = b3 := by
    rw [BitVec.extractLsb'_append_eq_of_le (by decide), BitVec.extractLsb'_append_eq_of_le (by decide)]
    exact BitVec.extractLsb'_append_eq_left
  rw [h0, h1, h2, h3]

/-- The mask of R41 keeps the low byte of the shifted word. -/
theorem setWidth_shiftRight_and_byteMask (w : Word) (k : Nat) : ((w >>> k) &&& 0xFF).setWidth 8 = w.extractLsb' k 8 := by
  have hmask : (0xFF : Word).setWidth 8 = BitVec.allOnes 8 := rfl
  rw [BitVec.setWidth_and, hmask, BitVec.and_allOnes, BitVec.setWidth_ushiftRight_eq_extractLsb]

/-- The bytes of UNPACK as R41 writes them: shifted and masked. -/
theorem unpackBytes_eq_masked (w : Word) : unpackBytes w =
    [(w &&& 0xFF).setWidth 8, ((w >>> 8) &&& 0xFF).setWidth 8, ((w >>> 16) &&& 0xFF).setWidth 8,
      ((w >>> 24) &&& 0xFF).setWidth 8] := by
  have hlow : (w &&& 0xFF).setWidth 8 = w.extractLsb' 0 8 := setWidth_shiftRight_and_byteMask w 0
  rw [hlow, setWidth_shiftRight_and_byteMask, setWidth_shiftRight_and_byteMask, setWidth_shiftRight_and_byteMask,
    unpackBytes, unpack]

/-- Byte `4i + k` of SER is byte `k` of word `i` (R44). -/
theorem ser_getElem? (h : DigestState) {i k : Nat} (hi : i < 5) (hk : k < 4) :
    (ser h)[4 * i + k]? = (unpackBytes (Spec.wordOf h i))[k]? := by
  interval_cases i <;> interval_cases k <;> rfl

end Sys2Proof.Machine

namespace Sys2Proof

open Sys2Proof.Machine Sys2Proof.Spec

theorem decode_of_packHeader {c : Command} (h : c.hdr = 0x0005) :
    decode c = .ok (.pack c.data[0] c.data[1] c.data[2] c.data[3]) := by
  have hrsv : rsvOf c = 0 := by rw [rsvOf, h]; rfl
  have hn : nOf c = 0 := by rw [nOf, h]; rfl
  have hop : opOf c = 5 := by rw [opOf, h]; rfl
  exact decode_of_decodeRow hrsv (.inr hn) (decodeRow_of_op_five hop)

theorem decode_of_unpackHeader {c : Command} (h : c.hdr = 0x0006) : decode c = .ok (.unpack c.w) := by
  have hrsv : rsvOf c = 0 := by rw [rsvOf, h]; rfl
  have hn : nOf c = 0 := by rw [nOf, h]; rfl
  have hop : opOf c = 6 := by rw [opOf, h]; rfl
  exact decode_of_decodeRow hrsv (.inr hn) (decodeRow_of_op_six hop)

/-- Settles O9: PACK answers its word and writes nothing (`exec_pack`); the word's value is `pack_toNat` and its bytes are those that
UNPACK finds in it (`unpack_pack`). -/
theorem packResult : Obligations.PackResult := by
  unfold Obligations.PackResult
  refine ⟨exec_pack, fun b0 b1 b2 b3 => ⟨pack_toNat b0 b1 b2 b3, ?_⟩, fun c h => decode_of_packHeader h, by decide⟩
  have hbytes := unpack_pack b0 b1 b2 b3
  simpa only [unpack, Prod.mk.injEq] using hbytes

/-- Settles O10: UNPACK answers its bytes and writes nothing (`exec_unpack`), and the rule's shifts and masks select the four byte
fields (`unpackBytes_eq_masked`). -/
theorem unpackResult : Obligations.UnpackResult := by
  unfold Obligations.UnpackResult
  refine ⟨fun w s => ?_, fun _ => rfl, fun c h => decode_of_unpackHeader h, by decide⟩
  rw [exec_unpack, unpackBytes_eq_masked]

/-- Settles O12: the words of a block are `words_getElem`, and the bytes of SER are those of its words (`ser_getElem?`). -/
theorem wordsAndSerialiseLittleEndian : Obligations.WordsAndSerialiseLittleEndian := by
  unfold Obligations.WordsAndSerialiseLittleEndian
  refine ⟨words_getElem, fun h => ⟨ser_length h, fun i hi => ?_⟩, by decide, by decide⟩
  have hbyte {k : Nat} (hk : k < 4) : (ser h)[4 * i + k]? = (unpackBytes (wordOf h i))[k]? := ser_getElem? h hi hk
  exact ⟨hbyte (k := 0) (by decide), hbyte (k := 1) (by decide), hbyte (k := 2) (by decide), hbyte (k := 3) (by decide)⟩

end Sys2Proof

/-! Padding and LAST (spec 41_padding.md R45, R50) and the longest message (R52). The key facts are what an open message does with a
BLOCK and with a LAST, said as the statements' `after` (`State.respond_eq_after`), and that a BLOCK keeps the message open with 512
more bits in the count, so that a list of BLOCKs is taken by induction (`run_blocks`). -/

namespace Sys2Proof.Machine

open Sys2Proof.Spec

/-! ### The padded message (R45) -/

/-- The zero run of the model is the non-negative residue of R45. -/
theorem padZeros_eq_emod (n : Nat) : (padZeros n : Int) = (55 - (n : Int)) % 64 := by
  unfold padZeros
  omega

theorem padZeros_eq_zero_iff (n : Nat) : padZeros n = 0 ↔ n % 64 = 55 := by
  unfold padZeros
  omega

/-- A length field that does not fit behind the message takes a further block. -/
theorem padZeros_of_ge {n : Nat} (h : 56 ≤ n % 64) : padZeros n = 119 - n % 64 := by
  unfold padZeros
  omega

/-! ### The fields of `after`

As in Laws/State, the proofs are written `(rfl)` so that simp applies these as equations. -/

section
variable (s : State) (h : DigestState) (len : Len) (p : Phase) (err : Bool) (cause : Nat) (rw : Word) (rdata : List Byte)

@[simp] theorem after_h : (after s h len p err cause rw rdata).h = h := (rfl)
@[simp] theorem after_len : (after s h len p err cause rw rdata).len = len := (rfl)
@[simp] theorem after_phase : (after s h len p err cause rw rdata).phase = p := (rfl)
@[simp] theorem after_err : (after s h len p err cause rw rdata).err = err := (rfl)
@[simp] theorem after_inputs : (after s h len p err cause rw rdata).inputs = s.inputs := (rfl)
@[simp] theorem after_responses : (after s h len p err cause rw rdata).responses =
    s.responses ++ [⟨header err p cause, rw, results rdata⟩] := (rfl)

end

/-- A response to a command that wrote registers: the port's two sides are those from before the command, one response longer. -/
theorem State.respond_eq_after {s u : State} (hinputs : u.inputs = s.inputs) (hresponses : u.responses = s.responses)
    (cause : Option Cause) (rw : Word) (rdata : List Byte) :
    u.respond cause rw rdata = after s u.h u.len u.phase u.err (causeCode cause).toNat rw rdata := by
  rw [State.respond_eq_answered, answered, after, after, hinputs, hresponses]

/-! ### BLOCK and LAST in and outside an open message (R50, R65) -/

theorem closed_eq_false {s : State} (h : Open s) : s.closed = false := (not_closed_iff s).mpr h

theorem closed_eq_true {s : State} (h : ¬ Open s) : s.closed = true :=
  Bool.eq_true_of_not_eq_false (mt (not_closed_iff s).mp h)

theorem full_eq_false {s : State} (h : s.len.toNat + 512 ≤ 2 ^ 64 - 1) : s.full = false := by
  rw [Bool.eq_false_iff, Ne, full_iff]
  omega

theorem exec_block_of_fits {s : State} (hopen : Open s) (hfits : s.len.toNat + 512 ≤ 2 ^ 64 - 1) (data : Block) :
    exec (.block data) s = .next (after s (cf s.h data) (s.len + 512) .proc s.err 0 0 []) := by
  have hexec : exec (.block data) s = .next (s.absorbBlock data).accept := by
    rw [exec, execBlock, closed_eq_false hopen, full_eq_false hfits, if_neg Bool.false_ne_true, if_neg Bool.false_ne_true]
  rw [hexec, State.accept, State.respond_eq_after (s := s) (by simp) (by simp)]
  simp [causeCode]

theorem exec_block_of_full {s : State} (hopen : Open s) (hfull : s.len.toNat + 512 > 2 ^ 64 - 1) (data : Block) :
    exec (.block data) s = .next (after s s.h s.len .error true 1 0 []) := by
  have hfull : s.full = true := (full_iff s).mpr (by omega)
  have hexec : exec (.block data) s = .next (s.breakMessage.reject .inputTooLarge) := by
    rw [exec, execBlock, closed_eq_false hopen, hfull, if_neg Bool.false_ne_true, if_pos rfl]
  rw [hexec, State.reject, State.respond_eq_after (s := s) (by simp) (by simp)]
  simp [causeCode]

theorem exec_last_of_open {s : State} (hopen : Open s) (t : List Byte) :
    exec (.last t) s = .next (after s (absorb s.h (blocks (tailBytes t (s.bitlen t.length)))) (s.bitlen t.length) .final s.err
      0 0 []) := by
  have hexec : exec (.last t) s = .next (s.absorbTail t).accept := by
    rw [exec, execLast, closed_eq_false hopen, if_neg Bool.false_ne_true]
  rw [hexec, State.accept, State.respond_eq_after (s := s) (by simp) (by simp)]
  simp [causeCode]

theorem exec_last_of_not_open {s : State} (hopen : ¬ Open s) (t : List Byte) :
    exec (.last t) s = .next (answered s 2 0 []) := by
  rw [exec, execLast, closed_eq_true hopen, if_pos rfl, State.reject, State.respond_eq_answered]
  rfl

/-! ### A message of BLOCKs (R52) -/

/-- 512 more bits, counted without wrapping when they fit. -/
theorem len_add_block {len : Len} (h : len.toNat + 512 ≤ 2 ^ 64 - 1) : (len + 512).toNat = len.toNat + 512 :=
  BitVec.toNat_add_of_lt (by simp; omega)

/-- The step on a presented BLOCK that fits keeps the message open, counts 512 more bits and acknowledges. -/
theorem step_block {s : State} {c : Command} {rest : List HostEvent} {d : Block} (hinputs : s.inputs = .command c :: rest)
    (hd : decode c = .ok (.block d)) (hopen : Open s) (hfits : s.len.toNat + 512 ≤ 2 ^ 64 - 1) :
    ∃ t, step s = .next t ∧ t.inputs = rest ∧ Open t ∧ t.err = s.err ∧ t.len.toNat = s.len.toNat + 512 ∧
      t.responses = s.responses ++ [⟨header s.err .proc 0, 0, results []⟩] := by
  have hstep : step s = exec (.block d) s.dropInput := (step_cons hinputs).trans (takeCommand_ok hd _)
  rw [exec_block_of_fits (s := s.dropInput) hopen hfits] at hstep
  refine ⟨_, hstep, ?_, .inr (by simp), by simp, ?_, by simp⟩
  · rw [after_inputs, State.dropInput_inputs, hinputs, List.tail_cons]
  · rw [after_len, State.dropInput_len, len_add_block hfits]

/-- Every BLOCK of a list that fits is accepted, from any open message without error. -/
theorem run_blocks {cs : List Command} {s : State} (hinputs : s.inputs = cs.map .command)
    (hblocks : ∀ c ∈ cs, ∃ d, decode c = .ok (.block d)) (hopen : Open s) (herr : s.err = false)
    (hfits : s.len.toNat + 512 * cs.length ≤ 2 ^ 64 - 1) :
    ∃ t : State, Host.Core.run Sys2Proof.core cs.length s = .next t ∧ Open t ∧ t.err = false ∧
      t.len.toNat = s.len.toNat + 512 * cs.length ∧
      t.responses = s.responses ++ List.replicate cs.length ⟨0x09, 0, results []⟩ := by
  induction cs generalizing s with
  | nil => exact ⟨s, run_zero s, hopen, herr, by simp, by simp⟩
  | cons c cs ih =>
    rw [List.length_cons, Nat.mul_succ, Nat.add_comm (512 * cs.length), ← Nat.add_assoc] at hfits
    obtain ⟨d, hd⟩ := hblocks c List.mem_cons_self
    obtain ⟨u, hstep, huinputs, huopen, huerr, hulen, huresponses⟩ := step_block hinputs hd hopen (Nat.le_of_add_right_le hfits)
    obtain ⟨t, hrun, htopen, hterr, htlen, htresponses⟩ :=
      ih huinputs (fun c' hc' => hblocks c' (List.mem_cons_of_mem c hc')) huopen (huerr.trans herr) (hulen ▸ hfits)
    refine ⟨t, (run_succ cs.length hstep).trans hrun, htopen, hterr, ?_, ?_⟩
    · rw [htlen, hulen, List.length_cons, Nat.mul_succ, Nat.add_assoc, Nat.add_comm 512]
    · rw [htresponses, huresponses, herr, List.append_assoc, List.length_cons, List.replicate_succ, List.singleton_append]
      rfl

end Sys2Proof.Machine

namespace Sys2Proof

open Sys2Proof.Machine Sys2Proof.Spec

theorem decode_of_lastHeader {c : Command} {n : Nat} (hn : n ≤ 63) (h : c.hdr = BitVec.ofNat 16 (16 * n + 3)) :
    decode c = .ok (.last (c.data.toList.take n)) := by
  have hhdr : c.hdr.toNat = 16 * n + 3 := by
    rw [h, BitVec.toNat_ofNat, Nat.mod_eq_of_lt (by omega)]
  have hrsv : rsvOf c = 0 := by rw [rsvOf, hhdr]; omega
  have hcount : nOf c = n := by rw [nOf, hhdr]; omega
  have hop : opOf c = 3 := by rw [opOf, hhdr]; omega
  have hrow := decodeRow_of_op_three hop
  rw [hcount, Command.dataBytes] at hrow
  exact decode_of_decodeRow hrsv (.inl hop) hrow

/-- Settles O15: the zero run is the model's `padZeros`, which is the rule's residue (`padZeros_eq_emod`); the bit length fits its 64
bits by the bound on the message. -/
theorem paddedMessage : Obligations.PaddedMessage := by
  unfold Obligations.PaddedMessage
  intro m hm
  refine ⟨padZeros m.length, padZeros_eq_emod m.length, Nat.le_of_lt_succ (padZeros_lt m.length),
    padZeros_eq_zero_iff m.length, padZeros_of_ge, by rw [pad, zeros], ?_⟩
  rw [BitVec.toNat_ofNat, Nat.mod_eq_of_lt (by omega)]

/-- Settles O33: LAST in an open message is `exec_last_of_open`, outside one `exec_last_of_not_open`; the rule's example is the first
case evaluated on "abc". -/
theorem lastResult : Obligations.LastResult := by
  unfold Obligations.LastResult
  refine ⟨fun t s _ _ hopen => exec_last_of_open hopen t, fun t s hopen => exec_last_of_not_open hopen t,
    fun c n hn h => decode_of_lastHeader hn h, ?_⟩
  rw [exec_last_of_open (.inl rfl)]
  exact congrArg Host.Outcome.next (by decide +kernel)

/-- Settles O58: the list of BLOCKs is taken by `run_blocks`; after 2^55 - 1 of them the count is 2^64 - 512, where a further BLOCK
does not fit (`exec_block_of_full`) and 63 bytes of LAST add 504 bits without wrapping. -/
theorem maximumMessage : Obligations.MaximumMessage := by
  unfold Obligations.MaximumMessage
  intro s cs hphase hlen herr hinputs hblocks hcount
  have hzero : s.len.toNat = 0 := by rw [hlen]; rfl
  obtain ⟨t, hrun, hopen, hterr, htlen, hresponses⟩ := run_blocks hinputs hblocks (.inl hphase) herr (by omega)
  rw [hzero, Nat.zero_add] at htlen
  refine ⟨t, _, hrun, hopen, hterr, htlen, hresponses, List.length_replicate, fun r => List.eq_of_mem_replicate, ?_⟩
  intro hmax
  have hlimit : t.len.toNat = 2 ^ 64 - 512 := by rw [htlen, hmax]; norm_num
  refine ⟨exec_block_of_full hopen (by omega), fun l hl => ⟨_, exec_last_of_open hopen l, by simp, ?_⟩⟩
  rw [after_len, State.bitlen, hl, BitVec.toNat_add, hlimit]
  rfl

end Sys2Proof

/-! The compression function (spec 42_compression.md R53 to R63) and BLOCK (R65). The key facts are that the selection tables are built
from two rows by composition (`selOf_succ`), so that all their rows are permutations once these two are, and that every rotation amount
is below the word's width, so that the shifts of a step are the circular rotation (`rol_rotOf`). -/

namespace Sys2Proof.Machine

open Sys2Proof.Spec

/-! ### The mixing functions, bit by bit (R54) -/

section
variable (x y z : Word) {i : Nat}

theorem mixF_zero_getLsbD : (mixF 0 x y z).getLsbD i = xor (xor (x.getLsbD i) (y.getLsbD i)) (z.getLsbD i) := by
  rw [mixF, BitVec.getLsbD_xor, BitVec.getLsbD_xor]

/-- `F1` selects `y` or `z` by `x`. -/
theorem mixF_one_getLsbD (hi : i < 32) : (mixF 1 x y z).getLsbD i = if x.getLsbD i then y.getLsbD i else z.getLsbD i := by
  rw [mixF, BitVec.getLsbD_or, BitVec.getLsbD_and, BitVec.getLsbD_and, BitVec.getLsbD_not]
  cases x.getLsbD i <;> simp [hi]

theorem mixF_two_getLsbD (hi : i < 32) :
    (mixF 2 x y z).getLsbD i = xor (x.getLsbD i || !y.getLsbD i) (z.getLsbD i) := by
  rw [mixF, BitVec.getLsbD_xor, BitVec.getLsbD_or, BitVec.getLsbD_not, decide_eq_true hi, Bool.true_and]

/-- `F3` selects `x` or `y` by `z`. -/
theorem mixF_three_getLsbD (hi : i < 32) : (mixF 3 x y z).getLsbD i = if z.getLsbD i then x.getLsbD i else y.getLsbD i := by
  rw [mixF, BitVec.getLsbD_or, BitVec.getLsbD_and, BitVec.getLsbD_and, BitVec.getLsbD_not]
  cases z.getLsbD i <;> simp [hi]

theorem mixF_four_getLsbD (hi : i < 32) :
    (mixF 4 x y z).getLsbD i = xor (x.getLsbD i) (y.getLsbD i || !z.getLsbD i) := by
  rw [mixF, BitVec.getLsbD_xor, BitVec.getLsbD_or, BitVec.getLsbD_not, decide_eq_true hi, Bool.true_and]

end

/-! ### The selection tables (R57) -/

theorem selOf_left_zero (j : Fin 16) : selOf .left 0 j = j := by
  revert j
  decide

theorem selOf_right_zero (j : Fin 16) : (selOf .right 0 j).val = (9 * j.val + 5) % 16 := by
  revert j
  decide

/-- Every later row is row 1 of the left table applied to the row before. -/
theorem selOf_succ (side : Side) (r : Fin 4) (j : Fin 16) :
    selOf side r.succ j = selOf .left 1 (selOf side r.castSucc j) := by
  cases side <;> revert r j <;> decide

theorem selOf_zero_injective (side : Side) : Function.Injective (selOf side 0) := by
  intro j k h
  cases side with
  | left => rwa [selOf_left_zero, selOf_left_zero] at h
  | right =>
    have hval := congrArg Fin.val h
    rw [selOf_right_zero, selOf_right_zero] at hval
    omega

theorem selOf_left_one_injective : Function.Injective (selOf .left 1) := by
  intro j k
  revert j k
  decide

/-- Each row is injective: row 0 is, and composing with row 1 of the left table keeps it. -/
theorem selOf_injective (side : Side) (r : Fin 5) : Function.Injective (selOf side r) := by
  induction r using Fin.induction with
  | zero => exact selOf_zero_injective side
  | succ r ih =>
    have hrow : selOf side r.succ = selOf .left 1 ∘ selOf side r.castSucc := funext (selOf_succ side r)
    rw [hrow]
    exact selOf_left_one_injective.comp ih

/-- Each row is a permutation of 0 to 15. -/
theorem selOf_bijective (side : Side) (r : Fin 5) : Function.Bijective (selOf side r) :=
  Finite.injective_iff_bijective.mp (selOf_injective side r)

/-! ### The rotation tables (R58) -/

/-- The `base` table of R58: the rotation amount by round and message word, one table for both lines. -/
def rotBase : List (List Nat) :=
  [[11, 14, 15, 12, 5, 8, 7, 9, 11, 13, 14, 15, 6, 7, 9, 8], [12, 13, 11, 15, 6, 9, 9, 7, 12, 15, 11, 13, 7, 8, 7, 7],
   [13, 15, 14, 11, 7, 7, 6, 8, 13, 14, 13, 12, 5, 5, 6, 9], [14, 11, 12, 14, 8, 6, 5, 5, 15, 12, 15, 14, 9, 9, 8, 6],
   [15, 12, 13, 13, 9, 5, 8, 6, 14, 11, 12, 11, 8, 6, 5, 5]]

/-- A step rotates by the base table's entry for its round and message word. -/
theorem rotBase_selOf (side : Side) (r : Fin 5) (j : Fin 16) :
    (rotBase.getD r.val []).getD (selOf side r j).val 0 = rotOf side r j := by
  cases side <;> revert r j <;> decide

/-- The rotation of a step is circular: its amount is below the width (R58). -/
theorem rol_rotOf (x : Word) (side : Side) (r : Fin 5) (j : Fin 16) :
    rol x (rotOf side r j) = x.rotateLeft (rotOf side r j) :=
  rol_eq_rotateLeft x _ (Nat.lt_of_le_of_lt (rotOf_range side r j).2 (by decide))

/-! ### BLOCK outside an open message (R65) -/

theorem exec_block_of_not_open {s : State} (hopen : ¬ Open s) (data : Block) :
    exec (.block data) s = .next (answered s 2 0 []) := by
  rw [exec, execBlock, closed_eq_true hopen, if_pos rfl, State.reject, State.respond_eq_answered]
  rfl

/-- In an open message the count is at most the last multiple of 512 (R19), so one more block fails to fit exactly there (R81). -/
theorem len_full_iff_of_open {s : State} (hinv : StateInv s) (hopen : Open s) :
    s.len.toNat + 512 > 2 ^ 64 - 1 ↔ s.len.toNat = 2 ^ 64 - 512 := by
  have hbound : s.len.toNat ≤ 2 ^ 64 - 512 := by
    rcases hopen with hinit | hproc
    · obtain ⟨-, hlen⟩ := hinv.init_fresh hinit
      simp [hlen]
    · obtain ⟨-, -, hle⟩ := hinv.proc_len hproc
      exact hle
  omega

end Sys2Proof.Machine

namespace Sys2Proof

open Sys2Proof.Machine Sys2Proof.Spec

theorem decode_of_blockHeader {c : Command} (h : c.hdr = 0x0002) : decode c = .ok (.block c.data) := by
  have hrsv : rsvOf c = 0 := by rw [rsvOf, h]; rfl
  have hn : nOf c = 0 := by rw [nOf, h]; rfl
  have hop : opOf c = 2 := by rw [opOf, h]; rfl
  exact decode_of_decodeRow hrsv (.inr hn) (decodeRow_of_op_two hop)

/-- Settles O20: each function is taken at one bit position (`mixF_zero_getLsbD` to `mixF_four_getLsbD`); the check values are
evaluated. -/
theorem mixingFunctions : Obligations.MixingFunctions := by
  unfold Obligations.MixingFunctions
  refine ⟨fun x y z i hi => ?_, by decide, by decide, by decide, by decide, by decide⟩
  exact ⟨mixF_zero_getLsbD x y z, mixF_one_getLsbD x y z hi, mixF_two_getLsbD x y z hi, mixF_three_getLsbD x y z hi,
    mixF_four_getLsbD x y z hi⟩

/-- Settles O21: rounds that add up to 4 are each other's reverse. -/
theorem functionSelection : Obligations.FunctionSelection := by
  unfold Obligations.FunctionSelection
  intro r r' hsum
  have hrev : r.rev = r' := Fin.ext (by rw [Fin.val_rev]; omega)
  rw [← hrev]
  exact ⟨rfl, rfl, rfl⟩

/-- Settles O22: the ten table entries, and the eight nonzero ones squared and cubed against the bounds of their roots, evaluated. -/
theorem additiveConstants : Obligations.AdditiveConstants := by
  unfold Obligations.AdditiveConstants
  exact ⟨by decide, by decide, by decide, by decide⟩

/-- Settles O23: the rows are `selOf_left_zero`, `selOf_right_zero` and `selOf_succ`; that each is a permutation follows from these
(`selOf_bijective`). -/
theorem selectionTables : Obligations.SelectionTables := by
  unfold Obligations.SelectionTables
  refine ⟨by decide, fun side r w => (selOf_bijective side r).existsUnique w,
    fun j => ⟨selOf_left_zero j, selOf_right_zero j⟩, ?_⟩
  intro side r r' j hsucc
  have hr : r.val < 4 := by omega
  have hr' : r' = (⟨r.val, hr⟩ : Fin 4).succ := Fin.ext hsucc
  rw [hr']
  exact selOf_succ side ⟨r.val, hr⟩ j

/-- Settles O24: every amount is in range (`rotOf_range`) and is the base table's entry (`rotBase_selOf`); the row sums are evaluated. -/
theorem rotationTables : Obligations.RotationTables := by
  unfold Obligations.RotationTables
  refine ⟨fun side r j => ?_, fun side => ?_⟩
  · obtain ⟨hlow, hhigh⟩ := rotOf_range side r j
    exact ⟨hlow, hhigh, rotBase_selOf side r j⟩
  · cases side <;> decide

/-- Settles O25: four registers are moved, the third with a rotation by 10, and the fifth is the rotated sum (`rol_rotOf`). -/
theorem stepOfLine : Obligations.StepOfLine := by
  unfold Obligations.StepOfLine
  refine ⟨fun side x r j g => ⟨rfl, rfl, rfl, rol_eq_rotateLeft g.c 10 (by decide), ?_⟩, by decide⟩
  rw [← rol_rotOf]
  rfl

/-- Settles O26: a line is the fold of its steps in order (`line_eq_foldl`), the `k`-th of which is named by `lineOrder_eq`. -/
theorem lineRunsEightySteps : Obligations.LineRunsEightySteps := by
  unfold Obligations.LineRunsEightySteps
  intro side h x
  have hmod (k : Nat) : Fin.ofNat 16 (k % 16) = Fin.ofNat 16 k := Fin.ext (Nat.mod_mod k 16)
  simp only [line_eq_foldl, lineOrder_eq, List.foldl_map, hmod, loadRegs]

/-- Settles O28: the five sums are those of `combine`; the check value is one compression evaluated. -/
theorem compressionFunction : Obligations.CompressionFunction := by
  unfold Obligations.CompressionFunction
  refine ⟨fun h b => ?_, by decide +kernel⟩
  exact ⟨rfl, rfl, rfl, rfl, rfl⟩

/-- Settles O32: BLOCK in an open message is `exec_block_of_fits` or `exec_block_of_full`, and outside one `exec_block_of_not_open`;
where the count is full under the invariant is `len_full_iff_of_open`; the rule's example is the first case evaluated on its block. -/
theorem blockResult : Obligations.BlockResult := by
  unfold Obligations.BlockResult
  refine ⟨fun data s hopen hfits => ⟨exec_block_of_fits hopen hfits data, len_add_block hfits⟩,
    fun data s hopen hfull => exec_block_of_full hopen hfull data, fun data s hopen => exec_block_of_not_open hopen data,
    fun s hinv hopen => len_full_iff_of_open hinv hopen, fun c h => decode_of_blockHeader h, ?_⟩
  rw [exec_block_of_fits (.inl rfl) (by decide)]
  exact congrArg Host.Outcome.next (by decide +kernel)

end Sys2Proof

/-! The commands of a digest (spec 43_digest.md R70 to R73) and the table of phases (R76). The key facts are one equation of `exec` per
command and state, said as the statements' `answered` and `after`, and that under the invariant of 10_state.md R19 the error bit is
exactly the phase ERROR (`err_eq_decide`), so that each row of the table only has to say the next phase and the cause. -/

namespace Sys2Proof.Machine

open Sys2Proof.Spec

/-! ### STAT, INIT and READ (R71, R72, R73) -/

/-- An outcome has one next state. -/
theorem next_unique {o : Host.Outcome State Fault Refusal} {t u : State} (ht : o = .next t) (hu : o = .next u) : t = u :=
  Host.Outcome.next.inj (ht.symm.trans hu)

theorem exec_stat (s : State) : exec .stat s = .next (answered s 0 0 []) :=
  congrArg Host.Outcome.next (s.respond_eq_answered none 0 [])

theorem exec_init (s : State) : exec .init s = .next (after s DigestState.iv 0 .init false 0 0 []) :=
  congrArg Host.Outcome.next
    (State.respond_eq_after s.startMessage_inputs s.startMessage_responses none 0 [])

theorem exec_read_of_final {s : State} (h : s.phase = .final) : exec .read s = .next (answered s 0 0 (ser s.h)) := by
  rw [exec, execRead, if_pos h, State.acceptBytes, State.respond_eq_answered]
  rfl

theorem exec_read_of_not_final {s : State} (h : s.phase ≠ .final) : exec .read s = .next (answered s 2 0 []) := by
  rw [exec, execRead, if_neg h, State.reject, State.respond_eq_answered]
  rfl

/-- READ writes no register, so a second one finds what the first found. -/
theorem read_repeats {s t u : State} (ht : exec .read s = .next t) (hu : exec .read t = .next u) :
    u.registers = s.registers ∧ ∃ r, t.responses = s.responses ++ [r] ∧ u.responses = s.responses ++ [r, r] := by
  by_cases hfinal : s.phase = .final
  · obtain rfl := next_unique (exec_read_of_final hfinal) ht
    obtain rfl := next_unique (exec_read_of_final (s := answered s 0 0 (ser s.h)) hfinal) hu
    exact ⟨rfl, ⟨header s.err s.phase 0, 0, results (ser s.h)⟩, rfl, by simp [answered]⟩
  · obtain rfl := next_unique (exec_read_of_not_final hfinal) ht
    obtain rfl := next_unique (exec_read_of_not_final (s := answered s 2 0 []) hfinal) hu
    exact ⟨rfl, ⟨header s.err s.phase 2, 0, results []⟩, rfl, by simp [answered]⟩

/-- A command other than INIT does not leave ERROR. -/
theorem phase_error_of_exec {i : Instr} {s t : State} (hi : i ≠ .init) (herror : s.phase = .error)
    (ht : exec i s = .next t) : t.phase = .error := by
  have hclosed : s.closed ≠ false := by simp [(closed_iff s).mpr (.inr herror)]
  obtain ⟨t', -, ht', -, -, heffect⟩ := exec_effect i s
  obtain rfl := next_unique ht' ht
  cases heffect with
  | same h _ =>
    obtain ⟨-, -, hphase, -⟩ := registers_eq.mp h
    exact hphase.trans herror
  | fresh _ h => exact absurd h hi
  | block _ _ ho _ _ => exact absurd ho hclosed
  | overflow _ _ ho _ _ => exact absurd ho hclosed
  | last _ _ ho _ => exact absurd ho hclosed

/-! ### The registers under the invariant (10_state.md R19) -/

theorem err_eq_decide {s : State} (hinv : StateInv s) : s.err = decide (s.phase = .error) :=
  Bool.eq_iff_iff.mpr (hinv.err_iff.trans decide_eq_true_iff.symm)

/-- In INIT the registers are those that reset and INIT leave. -/
theorem registers_of_init {s : State} (hinv : StateInv s) (hinit : s.phase = .init) :
    s.registers = State.reset.registers := by
  obtain ⟨hh, hlen⟩ := hinv.init_fresh hinit
  have herr : s.err = false := by rw [err_eq_decide hinv, hinit]; rfl
  exact registers_eq.mpr ⟨hh, hlen, hinit, herr⟩

/-- A message without a block is not at the count limit. -/
theorem len_ne_limit_of_init {s : State} (hinv : StateInv s) (hinit : s.phase = .init) : s.len.toNat ≠ 2 ^ 64 - 512 := by
  obtain ⟨-, hlen⟩ := hinv.init_fresh hinit
  simp [hlen]

/-! ### The table of phases (R76) -/

/-- What the table says of one command: the next phase and the cause are `e`, and ERR is set exactly in ERROR. -/
def AnswersAs (i : Instr) (s : State) (e : Phase × Nat) : Prop :=
  ∃ t r, exec i s = .next t ∧ t.responses = s.responses ++ [r] ∧ t.phase = e.1 ∧ t.err = decide (t.phase = .error) ∧
    r.rhdr = header t.err t.phase e.2

theorem answersAs_of_after {i : Instr} {s : State} {h : DigestState} {len : Len} {p : Phase} {err : Bool} {cause : Nat}
    {rw : Word} {rdata : List Byte} (hexec : exec i s = .next (after s h len p err cause rw rdata))
    (herr : err = decide (p = .error)) : AnswersAs i s (p, cause) :=
  ⟨_, _, hexec, rfl, rfl, herr, rfl⟩

/-- A command that writes no register stays in its phase. -/
theorem answersAs_of_answered {i : Instr} {s : State} {p : Phase} {cause : Nat} {rw : Word} {rdata : List Byte}
    (hinv : StateInv s) (hphase : s.phase = p) (hexec : exec i s = .next (answered s cause rw rdata)) :
    AnswersAs i s (p, cause) :=
  hphase ▸ answersAs_of_after hexec (err_eq_decide hinv)

section
variable {s : State} (hinv : StateInv s)
include hinv

theorem err_eq_false_of_open (hopen : Open s) : s.err = false := by
  rw [err_eq_decide hinv]
  rcases hopen with h | h <;> simp [h]

/-- BLOCK's row of the table: only in PROC does the count decide. -/
theorem block_answersAs (data : Block) :
    AnswersAs (.block data) s (transition (.block data) s.phase (decide (s.len.toNat = 2 ^ 64 - 512))) := by
  have haccept (hopen : Open s) (hlimit : s.len.toNat ≠ 2 ^ 64 - 512) : AnswersAs (.block data) s (.proc, 0) :=
    have hfits := mt (len_full_iff_of_open hinv hopen).mp hlimit
    answersAs_of_after (exec_block_of_fits hopen (Nat.le_of_not_gt hfits) data) (err_eq_false_of_open hinv hopen)
  cases hphase : s.phase with
  | init => exact haccept (.inl hphase) (len_ne_limit_of_init hinv hphase)
  | proc =>
    by_cases hlimit : s.len.toNat = 2 ^ 64 - 512
    · have hfull := (len_full_iff_of_open hinv (.inr hphase)).mpr hlimit
      rw [decide_eq_true hlimit]
      exact answersAs_of_after (exec_block_of_full (.inr hphase) hfull data) rfl
    · rw [decide_eq_false hlimit]
      exact haccept (.inr hphase) hlimit
  | final => exact answersAs_of_answered hinv hphase (exec_block_of_not_open (by simp [Open, hphase]) data)
  | error => exact answersAs_of_answered hinv hphase (exec_block_of_not_open (by simp [Open, hphase]) data)

/-- LAST's row of the table. -/
theorem last_answersAs (t : List Byte) (atLimit : Bool) : AnswersAs (.last t) s (transition (.last t) s.phase atLimit) := by
  have haccept (hopen : Open s) : AnswersAs (.last t) s (.final, 0) :=
    answersAs_of_after (exec_last_of_open hopen t) (err_eq_false_of_open hinv hopen)
  cases hphase : s.phase with
  | init => exact haccept (.inl hphase)
  | proc => exact haccept (.inr hphase)
  | final => exact answersAs_of_answered hinv hphase (exec_last_of_not_open (by simp [Open, hphase]) t)
  | error => exact answersAs_of_answered hinv hphase (exec_last_of_not_open (by simp [Open, hphase]) t)

/-- READ's row of the table. -/
theorem read_answersAs (atLimit : Bool) : AnswersAs .read s (transition .read s.phase atLimit) := by
  have hreject {p : Phase} (hphase : s.phase = p) (hp : p ≠ .final) : AnswersAs .read s (p, 2) :=
    answersAs_of_answered hinv hphase (exec_read_of_not_final (hphase ▸ hp))
  cases hphase : s.phase with
  | init => exact hreject hphase (by decide)
  | proc => exact hreject hphase (by decide)
  | final => exact answersAs_of_answered hinv hphase (exec_read_of_final hphase)
  | error => exact hreject hphase (by decide)

/-- Every command answers as the table says. -/
theorem exec_answersAs (i : Instr) :
    AnswersAs i s (transition i s.phase (decide (s.len.toNat = 2 ^ 64 - 512))) := by
  cases i with
  | stat => exact answersAs_of_answered hinv rfl (exec_stat s)
  | init => exact answersAs_of_after (exec_init s) rfl
  | block data => exact block_answersAs hinv data
  | last t => exact last_answersAs hinv t _
  | read => exact read_answersAs hinv _
  | pack b0 b1 b2 b3 => exact answersAs_of_answered hinv rfl (exec_pack b0 b1 b2 b3 s)
  | unpack w => exact answersAs_of_answered hinv rfl (exec_unpack w s)

end

/-- The step on a header that spells no command rejects it with ILLEGAL and writes no register (60_exceptions.md R83). -/
theorem step_of_badHeader {s : State} {c : Command} {rest : List HostEvent} (hinputs : s.inputs = .command c :: rest)
    (hbad : BadHeader c) : step s = .next (answered s.dropInput 3 0 []) := by
  obtain ⟨e, he⟩ := (exists_decode_error_iff c).mpr hbad
  have hstep : step s = .next (s.dropInput.reject .illegal) := (step_cons hinputs).trans (takeCommand_error he s.dropInput)
  rw [hstep, State.reject, State.respond_eq_answered]
  rfl

end Sys2Proof.Machine

namespace Sys2Proof

open Sys2Proof.Machine Sys2Proof.Spec

/-- A header of an operation code alone passes the checks of R35, so its row decides. -/
theorem decode_of_header_lt {c : Command} {i : Instr} (h : c.hdr.toNat < 16) (hrow : decodeRow c = some i) :
    decode c = .ok i := by
  have hrsv : rsvOf c = 0 := by unfold rsvOf; omega
  have hn : nOf c = 0 := by unfold nOf; omega
  exact decode_of_decodeRow hrsv (.inr hn) hrow

theorem decode_of_statHeader {c : Command} (h : c.hdr = 0x0000) : decode c = .ok .stat :=
  decode_of_header_lt (by rw [h]; decide) (decodeRow_of_op_zero (by rw [opOf, h]; rfl))

theorem decode_of_initHeader {c : Command} (h : c.hdr = 0x0001) : decode c = .ok .init :=
  decode_of_header_lt (by rw [h]; decide) (decodeRow_of_op_one (by rw [opOf, h]; rfl))

theorem decode_of_readHeader {c : Command} (h : c.hdr = 0x0004) : decode c = .ok .read :=
  decode_of_header_lt (by rw [h]; decide) (decodeRow_of_op_four (by rw [opOf, h]; rfl))

/-- Settles O36: the table is `exec_answersAs`, one lemma per row whose cells differ; the count limit is out of reach in INIT
(`len_ne_limit_of_init`), and in PROC the count is a multiple of 512, so short of the limit it is short by a whole block; an illegal
header is `step_of_badHeader`. -/
theorem phaseTransitions : Obligations.PhaseTransitions := by
  unfold Obligations.PhaseTransitions
  refine ⟨fun i s hinv _ => exec_answersAs hinv i, fun s hinv hinit => len_ne_limit_of_init hinv hinit, ?_, ?_, ?_⟩
  · intro s hinv hproc hlimit
    obtain ⟨hmod, -, hle⟩ := hinv.proc_len hproc
    omega
  · intro s c rest hinputs hbad
    exact ⟨_, _, step_of_badHeader hinputs hbad, rfl, rfl, rfl⟩
  · intro s rest hinputs
    exact ⟨s.dropInput.resetEngine, step_cons hinputs, State.resetEngine_phase _⟩

/-- Settles O29: the five words are those of `DigestState.iv`, and their twenty bytes are evaluated. -/
theorem initialValue : Obligations.InitialValue := by
  unfold Obligations.InitialValue
  exact ⟨rfl, by decide⟩

/-- Settles O30: STAT only answers (`exec_stat`), and the all-zero header is STAT. -/
theorem statReportsOnly : Obligations.StatReportsOnly := by
  unfold Obligations.StatReportsOnly
  exact ⟨exec_stat, fun _ h => decode_of_statHeader h, by decide, by decide⟩

/-- Settles O31: INIT leaves the fresh registers (`exec_init`), which in INIT stood there already (`registers_of_init`); no other command
leaves ERROR (`phase_error_of_exec`). -/
theorem initStartsMessage : Obligations.InitStartsMessage := by
  unfold Obligations.InitStartsMessage
  refine ⟨exec_init, fun _ h => decode_of_initHeader h, ?_, ?_, by decide⟩
  · intro s t ht
    obtain rfl := next_unique (exec_init s) ht
    exact ⟨rfl, fun hinv hinit => (registers_of_init hinv hinit).symm, exec_read_of_not_final (by simp)⟩
  · intro i s t herror ht hleft
    by_contra hi
    exact hleft (phase_error_of_exec hi herror ht)

/-- Settles O35: READ answers the digest in FINAL (`exec_read_of_final`) and is rejected elsewhere (`exec_read_of_not_final`); a second
one repeats the first (`read_repeats`); after LAST "abc" the digest state is the one of `lastResult`, of which the bytes are
evaluated. -/
theorem readResult : Obligations.ReadResult := by
  unfold Obligations.ReadResult
  refine ⟨fun s h => exec_read_of_final h, fun s h => exec_read_of_not_final h, fun s t u ht hu => read_repeats ht hu,
    fun c h => decode_of_readHeader h, ?_⟩
  intro t u ht hu
  obtain ⟨-, -, -, habc⟩ := lastResult
  obtain rfl := next_unique habc ht
  obtain rfl := next_unique (exec_read_of_final rfl) hu
  decide

end Sys2Proof

/-! Rejections (spec 60_exceptions.md R81 to R85). The key facts are that a command with a cause is answered and writes no register,
but for the two writes of INPUT_TOO_LARGE (`takeCommand_of_cause`), and that in ERROR every command other than INIT is only answered
(`exec_of_error`), so that a list of them is taken by induction (`run_of_error`). -/

namespace Sys2Proof.Machine

open Sys2Proof.Spec

/-! ### The cause and its response -/

theorem not_open_iff (s : State) : ¬ Open s ↔ s.phase = .final ∨ s.phase = .error := by
  unfold Open
  cases s.phase <;> decide

/-- The first event off the port leaves those after it. -/
theorem dropInput_eq {s : State} {e : HostEvent} {rest : List HostEvent} (h : s.inputs = e :: rest) :
    s.dropInput = { s with inputs := rest } := by
  rw [State.dropInput, h, List.tail_cons]

/-- A header with a cause has ACK 0 (R34). -/
theorem header_ack_of_cause {cause : Nat} (h : cause ≠ 0) (err : Bool) (p : Phase) :
    (header err p cause).getLsbD 0 = false := by
  have heven : (32 * err.toNat + 8 * phaseNumber p + 2 * cause + 0) % 2 ≠ 1 := by omega
  rw [header, if_neg h, BitVec.getLsbD_ofNat, Nat.testBit_zero, decide_eq_false heven, Bool.and_false]

/-- The whole effect of a command with a cause (R85): INPUT_TOO_LARGE writes ERR and PHASE, every other cause is only answered. -/
theorem takeCommand_of_cause {c : Command} {s : State} (hcause : causeOf c s ≠ 0) :
    (causeOf c s = 1 ∧ takeCommand c s = .next (after s s.h s.len .error true 1 0 [])) ∨
    (causeOf c s ≠ 1 ∧ takeCommand c s = .next (answered s (causeOf c s) 0 [])) := by
  cases hd : decode c with
  | error e =>
    have hillegal : causeOf c s = 3 := by simp only [causeOf, hd]
    refine .inr ⟨by omega, ?_⟩
    rw [takeCommand_error hd, hillegal, State.reject, State.respond_eq_answered]
    rfl
  | ok i =>
    rw [takeCommand_ok hd]
    cases i with
    | block data =>
      by_cases hopen : Open s
      · have hfull : s.full = true := by
          simpa [causeOf_block hd, closed_eq_false hopen] using hcause
        have hlen := (full_iff s).mp hfull
        exact .inl ⟨by simp [causeOf_block hd, closed_eq_false hopen, hfull], exec_block_of_full hopen (by omega) data⟩
      · have hprotocol : causeOf c s = 2 := by simp [causeOf_block hd, closed_eq_true hopen]
        exact .inr ⟨by omega, hprotocol ▸ exec_block_of_not_open hopen data⟩
    | last tail =>
      have hopen : ¬ Open s := fun hopen => hcause (by simp [causeOf_last hd, closed_eq_false hopen])
      have hprotocol : causeOf c s = 2 := by simp [causeOf_last hd, closed_eq_true hopen]
      exact .inr ⟨by omega, hprotocol ▸ exec_last_of_not_open hopen tail⟩
    | read =>
      have hphase : s.phase ≠ .final := fun hphase => hcause (by simp [causeOf_read hd, hphase])
      have hprotocol : causeOf c s = 2 := by simp [causeOf_read hd, hphase]
      exact .inr ⟨by omega, hprotocol ▸ exec_read_of_not_final hphase⟩
    | stat => exact absurd (by simp only [causeOf, hd]) hcause
    | init => exact absurd (by simp only [causeOf, hd]) hcause
    | pack b0 b1 b2 b3 => exact absurd (by simp only [causeOf, hd]) hcause
    | unpack w => exact absurd (by simp only [causeOf, hd]) hcause

/-! ### A broken message (R81) -/

/-- The command belongs to a message: READ, BLOCK or LAST. -/
def OfMessage (d : Except Illegal Instr) : Prop :=
  d = .ok .read ∨ (∃ b, d = .ok (.block b)) ∨ ∃ l, d = .ok (.last l)

/-- In ERROR a command other than INIT is only answered, a command of the message with PROTOCOL. -/
theorem exec_of_error {i : Instr} {s : State} (herror : s.phase = .error) (hi : i ≠ .init) :
    ∃ cause rw rdata, exec i s = .next (answered s cause rw rdata) ∧
      (OfMessage (.ok i) → cause = 2 ∧ rw = 0 ∧ rdata = []) := by
  have hopen : ¬ Open s := (not_open_iff s).mpr (.inr herror)
  cases i with
  | stat => exact ⟨0, 0, [], exec_stat s, by simp [OfMessage]⟩
  | init => exact absurd rfl hi
  | block data => exact ⟨2, 0, [], exec_block_of_not_open hopen data, fun _ => ⟨rfl, rfl, rfl⟩⟩
  | last tail => exact ⟨2, 0, [], exec_last_of_not_open hopen tail, fun _ => ⟨rfl, rfl, rfl⟩⟩
  | read => exact ⟨2, 0, [], exec_read_of_not_final (by simp [herror]), fun _ => ⟨rfl, rfl, rfl⟩⟩
  | pack b0 b1 b2 b3 => exact ⟨0, pack b0 b1 b2 b3, [], exec_pack b0 b1 b2 b3 s, by simp [OfMessage]⟩
  | unpack w => exact ⟨0, 0, unpackBytes w, exec_unpack w s, by simp [OfMessage]⟩

/-- The same of a presented command: an illegal header is only answered too. -/
theorem step_of_error {s : State} {c : Command} {rest : List HostEvent} (herror : s.phase = .error)
    (hinputs : s.inputs = .command c :: rest) (hc : decode c ≠ .ok .init) :
    ∃ t r, step s = .next t ∧ t.inputs = rest ∧ t.registers = s.registers ∧ t.responses = s.responses ++ [r] ∧
      (OfMessage (decode c) → r = ⟨header s.err .error 2, 0, results []⟩) := by
  have htake : ∃ cause rw rdata, takeCommand c s.dropInput = .next (answered s.dropInput cause rw rdata) ∧
      (OfMessage (decode c) → cause = 2 ∧ rw = 0 ∧ rdata = []) := by
    cases hd : decode c with
    | error e =>
      rw [takeCommand_error hd, State.reject, State.respond_eq_answered]
      exact ⟨_, _, _, rfl, by simp [OfMessage]⟩
    | ok i =>
      rw [takeCommand_ok hd]
      exact exec_of_error herror fun hi => hc (hi ▸ hd)
  obtain ⟨cause, rw, rdata, htake, hmessage⟩ := htake
  refine ⟨answered s.dropInput cause rw rdata, ⟨header s.err s.phase cause, rw, results rdata⟩,
    (step_cons hinputs).trans htake, ?_, rfl, rfl, fun h => ?_⟩
  · rw [answered, after_inputs, State.dropInput_inputs, hinputs, List.tail_cons]
  · obtain ⟨rfl, rfl, rfl⟩ := hmessage h
    rw [herror]

/-- ERROR persists over every list of commands without INIT: no register changes, and each command has its own response. -/
theorem run_of_error {cs : List Command} {s : State} (herror : s.phase = .error) (hinputs : s.inputs = cs.map .command)
    (hcs : ∀ c ∈ cs, decode c ≠ .ok .init) :
    ∃ (t : State) (rs : List Response), Host.Core.run Sys2Proof.core cs.length s = .next t ∧ t.registers = s.registers ∧
      t.responses = s.responses ++ rs ∧
      List.Forall₂ (fun c r => OfMessage (decode c) → r = ⟨header s.err .error 2, 0, results []⟩) cs rs := by
  induction cs generalizing s with
  | nil => exact ⟨s, [], run_zero s, rfl, by simp, .nil⟩
  | cons c cs ih =>
    obtain ⟨u, r, hstep, huinputs, huregisters, huresponses, hr⟩ :=
      step_of_error herror hinputs (hcs c List.mem_cons_self)
    obtain ⟨-, -, huphase, huerr⟩ := registers_eq.mp huregisters
    obtain ⟨t, rs, hrun, htregisters, htresponses, hrs⟩ :=
      ih (huphase.trans herror) huinputs fun c' hc' => hcs c' (List.mem_cons_of_mem c hc')
    refine ⟨t, r :: rs, (run_succ cs.length hstep).trans hrun, htregisters.trans huregisters, ?_, .cons hr (huerr ▸ hrs)⟩
    rw [htresponses, huresponses, List.append_assoc, List.singleton_append]

end Sys2Proof.Machine

namespace Sys2Proof

open Sys2Proof.Machine Sys2Proof.Spec

/-- Settles O38: the refusal is `exec_block_of_full`; under the invariant it happens exactly at the limit (`len_full_iff_of_open`), above
which no count of an open message lies; that ERROR persists is `run_of_error`. -/
theorem overflowRejected : Obligations.OverflowRejected := by
  unfold Obligations.OverflowRejected
  refine ⟨fun data s hopen hfull => ⟨exec_block_of_full hopen hfull data, by decide⟩, fun s hinv hopen => ?_, ?_⟩
  · have hlimit := len_full_iff_of_open hinv hopen
    exact ⟨hlimit, by omega⟩
  · intro s cs herror hinputs hcs
    obtain ⟨t, rs, hrun, hregisters, hresponses, hrs⟩ := run_of_error herror hinputs hcs
    refine ⟨t, rs, hrun, hregisters, hresponses, hrs.length_eq.symm, fun k c r hc hr hmessage => ?_⟩
    obtain ⟨hkc, rfl⟩ := List.getElem?_eq_some_iff.mp hc
    obtain ⟨hkr, rfl⟩ := List.getElem?_eq_some_iff.mp hr
    exact hrs.get hkc hkr hmessage

/-- Settles O39: the step's response is `rhdr` of the registers after the command and of the cause of R84 (`step_command_response`). -/
theorem causePriority : Obligations.CausePriority := by
  unfold Obligations.CausePriority
  intro s c rest hinputs
  obtain ⟨u, cause, hstep, -, hresponses, hcause⟩ := step_command_response hinputs
  refine ⟨_, ⟨rhdr cause u, wordResult (decode c), padTo 20 (byteResult s (decode c))⟩, hstep, ?_, ?_⟩
  · rw [State.respond_responses, hresponses]
  · rw [State.respond_err, State.respond_phase, ← hcause]
    exact rhdr_eq_header cause u

/-- Settles O40: the effect of a command with a cause is one of the two of `takeCommand_of_cause`. -/
theorem rejectionsArePrecise : Obligations.RejectionsArePrecise := by
  unfold Obligations.RejectionsArePrecise
  intro s c rest hinputs hcause
  have hack := header_ack_of_cause hcause
  have hstep : step s = takeCommand c { s with inputs := rest } := dropInput_eq hinputs ▸ step_cons hinputs
  rcases takeCommand_of_cause (s := { s with inputs := rest }) hcause with ⟨hone, htake⟩ | ⟨hone, htake⟩
  · have hone : causeOf c s = 1 := hone
    refine ⟨_, hstep.trans htake, rfl, ?_, hack _ _, rfl, rfl, fun _ => ⟨rfl, rfl⟩, fun h => absurd hone h⟩
    rw [hone]
    rfl
  · exact ⟨_, hstep.trans htake, rfl, rfl, hack _ _, rfl, rfl, fun h => absurd h hone, fun _ => ⟨rfl, rfl⟩⟩

/-- Settles O7: the headers are those of `exists_decode_error_iff`, and the step on one is `step_of_badHeader`. -/
theorem illegalHeaderRejected : Obligations.IllegalHeaderRejected := by
  unfold Obligations.IllegalHeaderRejected
  refine ⟨exists_decode_error_iff, fun s c rest hinputs hbad => ?_⟩
  rw [step_of_badHeader hinputs hbad, dropInput_eq hinputs]

/-- Settles O37: outside an open message BLOCK and LAST only answer, so a READ in FINAL still finds the digest after one. -/
theorem protocolRejections : Obligations.ProtocolRejections := by
  unfold Obligations.ProtocolRejections
  refine ⟨fun s hphase => ?_, fun s hphase => exec_read_of_not_final ?_, fun s t data tail hfinal hstray => ?_⟩
  · have hopen := (not_open_iff s).mpr hphase
    exact ⟨exec_block_of_not_open hopen, exec_last_of_not_open hopen⟩
  · rcases hphase with h | h | h <;> simp [h]
  · have hopen := (not_open_iff s).mpr (.inl hfinal)
    obtain rfl : answered s 2 0 [] = t := by
      rcases hstray with h | h
      · exact next_unique (exec_block_of_not_open hopen data) h
      · exact next_unique (exec_last_of_not_open hopen tail) h
    exact exec_read_of_final (s := answered s 2 0 []) hfinal

end Sys2Proof

/-! The state after reset (spec 70_reset_and_hazards.md R100). The key fact is that an engine to which nothing is presented takes no
step but the one that keeps its state (`run_of_inputs_nil`), so nothing runs from reset. -/

namespace Sys2Proof.Machine

/-- With nothing presented, any number of steps keeps the state (60_exceptions.md R94). -/
theorem run_of_inputs_nil {s : State} (hinputs : s.inputs = []) (k : Nat) : Host.Core.run Sys2Proof.core k s = .next s := by
  induction k with
  | zero => exact run_zero s
  | succ k ih => exact (run_succ k (step_nil hinputs)).trans ih

/-- INIT from any state leaves the registers of reset. -/
theorem registers_of_exec_init {s t : State} (ht : exec .init s = .next t) : t.registers = State.reset.registers := by
  obtain rfl := next_unique (exec_init s) ht
  rfl

end Sys2Proof.Machine

namespace Sys2Proof

open Sys2Proof.Machine

/-- Settles O43: the five words are those of `initialValue`, INIT leaves the same registers (`registers_of_exec_init`), and the host
has presented nothing at reset (`run_of_inputs_nil`). -/
theorem resetState : Obligations.ResetState := by
  unfold Obligations.ResetState
  obtain ⟨hiv, -⟩ := initialValue
  exact ⟨hiv, rfl, rfl, rfl, fun _ _ => registers_of_exec_init, run_of_inputs_nil rfl⟩

end Sys2Proof

/-! Encoding and decoding (spec 30_encoding.md R33, R35, R37). The key facts are that an encoded command has the operation code and
the operands of its row (`decodeRow_encode`), and that a header is fixed by its three fields (`hdr_toNat_eq`), so that a legal header
is the one its command is encoded with. -/

namespace Sys2Proof

open Sys2Proof.Machine Sys2Proof.Spec

/-! ### Decoding an encoded command -/

/-- The bytes of a data operand that a list was padded to. -/
theorem take_ofList_toList {l : List Byte} (h : l.length ≤ 64) : (Block.ofList l).toList.take l.length = l := by
  rw [Block.ofList, padTo_toList, List.take_take, Nat.min_eq_left h, List.take_left]

/-- Every well-formed command is encoded with a header that R35 does not reject. -/
theorem headerForm (i : Instr) : Laws.HeaderForm.Statement i := by
  cases i with
  | stat => exact Laws.HeaderForm.stat
  | init => exact Laws.HeaderForm.init
  | block data => exact Laws.HeaderForm.block data
  | last tail => exact Laws.HeaderForm.last tail
  | read => exact Laws.HeaderForm.read
  | pack b0 b1 b2 b3 => exact Laws.HeaderForm.pack b0 b1 b2 b3
  | unpack w => exact Laws.HeaderForm.unpack w

/-- The encoded command selects its own row, with its own operands. -/
theorem decodeRow_encode {i : Instr} (hwf : i.wellFormed = true) : decodeRow (encode i) = some i := by
  cases i with
  | stat => exact decodeRow_of_op_zero rfl
  | init => exact decodeRow_of_op_one rfl
  | block data => exact decodeRow_of_op_two rfl
  | last tail =>
    have hlen : tail.length ≤ 63 := of_decide_eq_true hwf
    have hhdr : (encode (.last tail)).hdr.toNat = 16 * tail.length + 3 := encodeHeader_last_toNat tail hlen
    have hop : opOf (encode (.last tail)) = 3 := by rw [opOf, hhdr]; omega
    have hn : nOf (encode (.last tail)) = tail.length := by rw [nOf, hhdr]; omega
    have hbytes : (encode (.last tail)).dataBytes tail.length = tail := take_ofList_toList (by omega)
    rw [decodeRow_of_op_three hop, hn, hbytes]
  | read => exact decodeRow_of_op_four rfl
  | pack b0 b1 b2 b3 =>
    have hbyte (k : Nat) (hk : k < 64) : (encode (.pack b0 b1 b2 b3)).data[k] = [b0, b1, b2, b3].getD k 0 :=
      padTo_getElem 64 [b0, b1, b2, b3] k hk
    rw [decodeRow_of_op_five rfl, hbyte 0, hbyte 1, hbyte 2, hbyte 3]
    rfl
  | unpack w => exact decodeRow_of_op_six rfl

/-- Settles O5: the header of an encoded command passes the checks of R35 (`headerForm`), and its row is the command itself
(`decodeRow_encode`). -/
theorem decodeEncodeRoundTrip : Obligations.DecodeEncodeRoundTrip := by
  unfold Obligations.DecodeEncodeRoundTrip
  intro i hwf
  obtain ⟨hrsv, -, hn⟩ := headerForm i hwf
  exact (decode_eq_ok (encode i) i).mpr ⟨hrsv, decodeRow_encode hwf, hn⟩

/-! ### Encoding a decoded command -/

/-- A header is its three fields side by side (R31). -/
theorem hdr_toNat_eq (c : Command) : c.hdr.toNat = 1024 * rsvOf c + 16 * nOf c + opOf c := by
  unfold rsvOf nOf opOf
  omega

/-- A legal header of a command other than LAST is its operation code alone. -/
theorem hdr_eq_of_fields {c : Command} {k : Nat} (hrsv : rsvOf c = 0) (hn : nOf c = 0) (hop : opOf c = k) :
    BitVec.ofNat 16 k = c.hdr := by
  have hhdr : c.hdr.toNat = k := by rw [hdr_toNat_eq, hrsv, hn, hop, Nat.zero_add]
  rw [← hhdr, BitVec.ofNat_toNat, BitVec.setWidth_eq]

/-- A command is decoded from the header it is encoded with, and is well formed. -/
theorem wellFormed_and_encodeHeader_of_decode {c : Command} {i : Instr} (h : decode c = .ok i) :
    i.wellFormed = true ∧ encodeHeader i = c.hdr := by
  obtain ⟨hrsv, hrow, hn⟩ := (decode_eq_ok_iff c i).mp h
  have hcount (hop : opOf c ≠ 3) : nOf c = 0 := hn.resolve_left hop
  have hhdr {k : Nat} (hk : k ≠ 3) (hop : opOf c = k) : BitVec.ofNat 16 k = c.hdr :=
    hdr_eq_of_fields hrsv (hcount (hop ▸ hk)) hop
  rcases op_cases c with hop | hop | hop | hop | hop | hop | hop | hop
  · obtain rfl := Option.some.inj ((decodeRow_of_op_zero hop).symm.trans hrow)
    exact ⟨rfl, hhdr (by decide) hop⟩
  · obtain rfl := Option.some.inj ((decodeRow_of_op_one hop).symm.trans hrow)
    exact ⟨rfl, hhdr (by decide) hop⟩
  · obtain rfl := Option.some.inj ((decodeRow_of_op_two hop).symm.trans hrow)
    exact ⟨rfl, hhdr (by decide) hop⟩
  · obtain rfl := Option.some.inj ((decodeRow_of_op_three hop).symm.trans hrow)
    have hlt : nOf c < 64 := Nat.mod_lt _ (by decide)
    have hlen : (c.dataBytes (nOf c)).length = nOf c := dataBytes_length c (nOf c) (by omega)
    have hle : (c.dataBytes (nOf c)).length ≤ 63 := by omega
    refine ⟨decide_eq_true hle, BitVec.eq_of_toNat_eq ?_⟩
    rw [encodeHeader_last_toNat _ hle, hlen, hdr_toNat_eq, show rsvOf c = 0 from hrsv, hop]
    omega
  · obtain rfl := Option.some.inj ((decodeRow_of_op_four hop).symm.trans hrow)
    exact ⟨rfl, hhdr (by decide) hop⟩
  · obtain rfl := Option.some.inj ((decodeRow_of_op_five hop).symm.trans hrow)
    exact ⟨rfl, hhdr (by decide) hop⟩
  · obtain rfl := Option.some.inj ((decodeRow_of_op_six hop).symm.trans hrow)
    exact ⟨rfl, hhdr (by decide) hop⟩
  · cases (decodeRow_of_reserved_op hop).symm.trans hrow

/-- Settles O6: the decoded command is well formed and its header is the record's (`wellFormed_and_encodeHeader_of_decode`), so it
decodes to itself (`decodeEncodeRoundTrip`). -/
theorem decodedCommandReencodes : Obligations.DecodedCommandReencodes := by
  unfold Obligations.DecodedCommandReencodes
  intro c i h
  obtain ⟨hwf, hhdr⟩ := wellFormed_and_encodeHeader_of_decode h
  exact ⟨hwf, hhdr, decodeEncodeRoundTrip i hwf⟩

/-! ### Written headers, and the step on a legal one -/

/-- Settles O4: each legal header is one of the decoder's equations by header, and each illegal one fails the check of R35 that its
fields name. -/
theorem writtenHeadersDecode : Obligations.WrittenHeadersDecode := by
  unfold Obligations.WrittenHeadersDecode
  intro w data
  have hthree : data.toList.take 3 = [data[0], data[1], data[2]] := by
    apply List.ext_getElem (by simp)
    intro k hk _
    have hk : k < 3 := by simpa using hk
    interval_cases k <;> simp
  refine ⟨decode_of_statHeader rfl, decode_of_initHeader rfl, decode_of_blockHeader rfl, ?_, decode_of_readHeader rfl,
    decode_of_packHeader rfl, decode_of_unpackHeader rfl, ?_, ?_, ?_⟩
  · rw [decode_of_lastHeader (n := 3) (by decide) rfl, hthree]
  · exact decode_reservedOpcode (show (0x0007 : BitVec 16).extractLsb' 10 6 = 0 by decide)
      (decodeRow_of_reserved_op (show 7 ≤ (0x0007 : BitVec 16).toNat % 16 by decide))
  · exact decode_strayCount (show (0x03F6 : BitVec 16).extractLsb' 10 6 = 0 by decide)
      (decodeRow_of_op_six (show (0x03F6 : BitVec 16).toNat % 16 = 6 by decide))
      (show (0x03F6 : BitVec 16).extractLsb' 0 4 ≠ 3 by decide) (show (0x03F6 : BitVec 16).extractLsb' 4 6 ≠ 0 by decide)
  · exact decode_reservedBits (show (0x0403 : BitVec 16).extractLsb' 10 6 ≠ 0 by decide)

/-- The step on a presented command takes it off the port. -/
theorem step_of_command {s : State} {c : Command} {rest : List HostEvent} (hinputs : s.inputs = .command c :: rest) :
    step s = takeCommand c { s with inputs := rest } := by
  rw [step_cons hinputs, dropInput_eq hinputs, takeEvent]

/-- The step on a presented command that decodes runs it. -/
theorem step_of_decode {s : State} {c : Command} {rest : List HostEvent} {i : Instr} (hinputs : s.inputs = .command c :: rest)
    (hd : decode c = .ok i) : step s = exec i { s with inputs := rest } :=
  (step_of_command hinputs).trans (takeCommand_ok hd _)

/-- Settles O1: the step takes the command off the port and runs what it decodes to. -/
theorem stepRunsDecodedCommand : Obligations.StepRunsDecodedCommand := by
  unfold Obligations.StepRunsDecodedCommand
  exact fun _ _ _ _ hinputs hd => step_of_decode hinputs hd

end Sys2Proof

/-! What a step does, and the invariant of 10_state.md R19. The key fact is the inversion of the step (`stepEffect_of_step`): it keeps
the state, resets it, or has one of the register effects of its command. The invariant, the error flag and the writers of the digest
state are read off its cases. -/

namespace Sys2Proof.Machine

open Sys2Proof.Spec

/-! ### What a step can do -/

/-- The effect of one step on the registers, told apart by the event taken. -/
inductive StepEffect (s t : State) : Prop where
  | idle (hinputs : s.inputs = []) (h : t = s)
  | reset (e : HostEvent) (rest : List HostEvent) (hinputs : s.inputs = e :: rest)
      (he : e = .reset ∨ ∃ c, e = .resetDuring c) (h : t = s.dropInput.resetEngine)
  | command (c : Command) (rest : List HostEvent) (i : Instr) (hinputs : s.inputs = .command c :: rest)
      (hd : decode c = .ok i) (h : RegEffect i s t)
  | illegal (c : Command) (rest : List HostEvent) (e : Illegal) (hinputs : s.inputs = .command c :: rest)
      (hd : decode c = .error e) (h : t.registers = s.registers)

/-- Taking an event off the port changes no register. -/
theorem RegEffect.of_dropInput {i : Instr} {s t : State} (h : RegEffect i s.dropInput t) : RegEffect i s t := by
  cases h with
  | same h hi => exact .same h hi
  | fresh h hi => exact .fresh h hi
  | block b hi ho hf h => exact .block b hi ho hf h
  | overflow b hi ho hf h => exact .overflow b hi ho hf h
  | last l hi ho h => exact .last l hi ho h

/-- Reset, between commands or during one, is the reset input on the state with that event taken off the port (R101). -/
theorem step_of_reset {s : State} {e : HostEvent} {rest : List HostEvent} (hinputs : s.inputs = e :: rest)
    (he : e = .reset ∨ ∃ c, e = .resetDuring c) : step s = .next s.dropInput.resetEngine := by
  rw [step_cons hinputs]
  rcases he with rfl | ⟨c, rfl⟩ <;> rfl

/-- Every step answers a next state (60_exceptions.md R88), with one of the effects above. -/
theorem exists_step (s : State) : ∃ t, step s = .next t ∧ StepEffect s t := by
  cases hinputs : s.inputs with
  | nil => exact ⟨s, step_nil hinputs, .idle hinputs rfl⟩
  | cons e rest =>
    cases e with
    | command c =>
      obtain ⟨t, -, htake, -, -, heffect⟩ := takeCommand_effect c s.dropInput
      refine ⟨t, (step_cons hinputs).trans htake, ?_⟩
      rcases heffect with ⟨i, hd, h⟩ | ⟨⟨e, hd⟩, h⟩
      · exact .command c rest i hinputs hd h.of_dropInput
      · exact .illegal c rest e hinputs hd h
    | reset => exact ⟨_, step_of_reset hinputs (.inl rfl), .reset _ rest hinputs (.inl rfl) rfl⟩
    | resetDuring c => exact ⟨_, step_of_reset hinputs (.inr ⟨c, rfl⟩), .reset _ rest hinputs (.inr ⟨c, rfl⟩) rfl⟩

/-- The inversion of the step. -/
theorem stepEffect_of_step {s t : State} (h : step s = .next t) : StepEffect s t := by
  obtain ⟨u, hu, heffect⟩ := exists_step s
  exact next_unique hu h ▸ heffect

/-- What every step keeps, a run keeps. -/
theorem run_induction {P : State → Prop} (hkeep : ∀ s t, P s → step s = .next t → P t) {k : Nat} {s t : State} (hs : P s)
    (hrun : Host.Core.run Sys2Proof.core k s = .next t) : P t := by
  induction k generalizing s with
  | zero => exact next_unique (run_zero s) hrun ▸ hs
  | succ k ih =>
    obtain ⟨u, hstep, -⟩ := exists_step s
    exact ih (hkeep s u hs hstep) ((run_succ k hstep).symm.trans hrun)

/-! ### The invariant (R19) -/

/-- The invariant reads the registers alone. -/
theorem stateInv_congr {s t : State} (h : t.registers = s.registers) (hinv : StateInv s) : StateInv t := by
  obtain ⟨hh, hlen, hphase, herr⟩ := registers_eq.mp h
  exact {
    init_fresh := by rw [hphase, hh, hlen]; exact hinv.init_fresh
    proc_len := by rw [hphase, hlen]; exact hinv.proc_len
    final_len := by rw [hphase, hlen]; exact hinv.final_len
    err_iff := by rw [hphase, herr]; exact hinv.err_iff
    error_len := by rw [hphase, hlen]; exact hinv.error_len }

theorem stateInv_reset : StateInv State.reset where
  init_fresh _ := ⟨rfl, rfl⟩
  proc_len h := nomatch h
  final_len h := nomatch h
  err_iff := by decide
  error_len h := nomatch h

theorem stateInv_of_proc {t : State} (hphase : t.phase = .proc) (herr : t.err = false)
    (hlen : t.len.toNat % 512 = 0 ∧ 512 ≤ t.len.toNat ∧ t.len.toNat ≤ 2 ^ 64 - 512) : StateInv t where
  init_fresh := by simp [hphase]
  proc_len _ := hlen
  final_len := by simp [hphase]
  err_iff := by simp [hphase, herr]
  error_len := by simp [hphase]

theorem stateInv_of_final {t : State} (hphase : t.phase = .final) (herr : t.err = false)
    (hlen : t.len.toNat % 8 = 0 ∧ t.len.toNat ≤ 2 ^ 64 - 8) : StateInv t where
  init_fresh := by simp [hphase]
  proc_len := by simp [hphase]
  final_len _ := hlen
  err_iff := by simp [hphase, herr]
  error_len := by simp [hphase]

theorem stateInv_of_error {t : State} (hphase : t.phase = .error) (herr : t.err = true)
    (hlen : t.len.toNat = 2 ^ 64 - 512) : StateInv t where
  init_fresh := by simp [hphase]
  proc_len := by simp [hphase]
  final_len := by simp [hphase]
  err_iff := by simp [hphase, herr]
  error_len _ := hlen

section
variable {s : State} (hinv : StateInv s) (hopen : Open s)
include hinv hopen

/-- While a message is open the count is a number of whole blocks, and below the limit. -/
theorem len_of_open : s.len.toNat % 512 = 0 ∧ s.len.toNat ≤ 2 ^ 64 - 512 := by
  rcases hopen with hinit | hproc
  · obtain ⟨-, hlen⟩ := hinv.init_fresh hinit
    simp [hlen]
  · obtain ⟨hmod, -, hle⟩ := hinv.proc_len hproc
    exact ⟨hmod, hle⟩

/-- The last fragment's bits are counted without wrapping (41_padding.md R50). -/
theorem bitlen_toNat {n : Nat} (hn : n ≤ 63) : (s.bitlen n).toNat = s.len.toNat + 8 * n := by
  obtain ⟨-, hle⟩ := len_of_open hinv hopen
  have hbits : (BitVec.ofNat 64 (8 * n)).toNat = 8 * n := by rw [BitVec.toNat_ofNat, Nat.mod_eq_of_lt (by omega)]
  rw [State.bitlen, BitVec.toNat_add_of_lt (by omega), hbits]

end

theorem len_fits_of_not_full {s : State} (hf : s.full = false) : s.len.toNat + 512 ≤ 2 ^ 64 - 1 := by
  have hlt : ¬ 2 ^ 64 - 513 < s.len.toNat := fun hlt => by simp [(full_iff s).mpr hlt] at hf
  omega

theorem len_full_of_full {s : State} (hf : s.full = true) : s.len.toNat + 512 > 2 ^ 64 - 1 := by
  have hlt := (full_iff s).mp hf
  omega

theorem length_of_wellFormed_last {l : List Byte} (hwf : (Instr.last l).wellFormed = true) : l.length ≤ 63 :=
  of_decide_eq_true hwf

/-- A command that a header can write keeps the invariant. -/
theorem RegEffect.keeps_inv {i : Instr} {s t : State} (hwf : i.wellFormed = true) (hinv : StateInv s)
    (heffect : RegEffect i s t) : StateInv t := by
  cases heffect with
  | same h _ => exact stateInv_congr h hinv
  | fresh h _ => exact stateInv_congr (s := State.reset) h stateInv_reset
  | block b _ ho hf h =>
    have hopen : Open s := (not_closed_iff s).mp ho
    have hfits := len_fits_of_not_full hf
    obtain ⟨hmod, -⟩ := len_of_open hinv hopen
    obtain ⟨-, hlen, hphase, herr⟩ := registers_eq.mp h
    refine stateInv_of_proc hphase (herr.trans (err_eq_false_of_open hinv hopen)) ?_
    rw [hlen, len_add_block hfits]
    omega
  | overflow b _ ho hf h =>
    have hopen : Open s := (not_closed_iff s).mp ho
    have hlimit := (len_full_iff_of_open hinv hopen).mp (len_full_of_full hf)
    obtain ⟨-, hlen, hphase, herr⟩ := registers_eq.mp h
    exact stateInv_of_error hphase herr (hlen ▸ hlimit)
  | last l hi ho h =>
    have hopen : Open s := (not_closed_iff s).mp ho
    have hl : l.length ≤ 63 := length_of_wellFormed_last (hi ▸ hwf)
    obtain ⟨hmod, hle⟩ := len_of_open hinv hopen
    obtain ⟨-, hlen, hphase, herr⟩ := registers_eq.mp h
    refine stateInv_of_final hphase (herr.trans (err_eq_false_of_open hinv hopen)) ?_
    rw [hlen, bitlen_toNat hinv hopen hl]
    omega

theorem step_keeps_inv {s t : State} (hinv : StateInv s) (hstep : step s = .next t) : StateInv t := by
  cases stepEffect_of_step hstep with
  | idle _ h => exact h ▸ hinv
  | reset _ _ _ _ h => exact h ▸ stateInv_congr (s := State.reset) rfl stateInv_reset
  | command _ _ _ _ hd h =>
    obtain ⟨hwf, -⟩ := wellFormed_and_encodeHeader_of_decode hd
    exact h.keeps_inv hwf hinv
  | illegal _ _ _ _ _ h => exact stateInv_congr h hinv

/-! ### The writers of the error flag and of the digest state (R11, R14) -/

section
variable {t : State} {h : DigestState} {len : Len} {p : Phase} {err : Bool} (hregisters : t.registers = (h, len, p, err))
include hregisters

theorem h_of_registers : t.h = h := congrArg Prod.fst hregisters

theorem err_of_registers : t.err = err := congrArg (fun r => r.2.2.2) hregisters

end

section
variable {i : Instr} {s t : State} (heffect : RegEffect i s t)
include heffect

/-- A command keeps ERR, clears it as INIT, or sets it as the BLOCK that overflows the count. -/
theorem RegEffect.err_cases :
    t.err = s.err ∨ (i = .init ∧ t.err = false) ∨
    ∃ b, i = .block b ∧ Open s ∧ s.len.toNat + 512 > 2 ^ 64 - 1 ∧ t.err = true := by
  cases heffect with
  | same h _ => exact .inl (err_of_registers h)
  | fresh h hi => exact .inr (.inl ⟨hi, err_of_registers h⟩)
  | block _ _ _ _ h => exact .inl (err_of_registers h)
  | overflow b hi ho hf h => exact .inr (.inr ⟨b, hi, (not_closed_iff s).mp ho, len_full_of_full hf, err_of_registers h⟩)
  | last _ _ _ h => exact .inl (err_of_registers h)

/-- A command keeps H, or writes it as INIT, an accepted BLOCK or an accepted LAST. -/
theorem RegEffect.h_cases :
    t.h = s.h ∨ (i = .init ∧ t.h = DigestState.iv) ∨
    (∃ b, i = .block b ∧ Open s ∧ s.len.toNat + 512 ≤ 2 ^ 64 - 1 ∧ t.h = cf s.h b) ∨
    ∃ l, i = .last l ∧ Open s ∧ t.h = absorb s.h (blocks (tailBytes l (s.bitlen l.length))) := by
  cases heffect with
  | same h _ => exact .inl (h_of_registers h)
  | fresh h hi => exact .inr (.inl ⟨hi, h_of_registers h⟩)
  | block b hi ho hf h => exact .inr (.inr (.inl ⟨b, hi, (not_closed_iff s).mp ho, len_fits_of_not_full hf, h_of_registers h⟩))
  | overflow _ _ _ _ h => exact .inl (h_of_registers h)
  | last l hi ho h => exact .inr (.inr (.inr ⟨l, hi, (not_closed_iff s).mp ho, h_of_registers h⟩))

end

end Sys2Proof.Machine

namespace Sys2Proof

open Sys2Proof.Machine Sys2Proof.Spec

/-- Settles O45: reset is the phase INIT with a fresh digest state and count, and no error. -/
theorem resetMeetsInvariant : Obligations.ResetMeetsInvariant := stateInv_reset

/-- Settles O46: a step keeps the registers, resets them, or has the effect of a command that a header can write
(`RegEffect.keeps_inv`). -/
theorem stepKeepsInvariant : Obligations.StepKeepsInvariant := by
  unfold Obligations.StepKeepsInvariant
  exact fun _ _ hinv hstep => step_keeps_inv hinv hstep

/-- Settles O47: the invariant holds of the reset state, whatever is presented to it, and every step of the run keeps it. -/
theorem reachableStatesMeetInvariant : Obligations.ReachableStatesMeetInvariant := by
  unfold Obligations.ReachableStatesMeetInvariant
  rintro s ⟨events, k, hrun⟩
  have hstart : StateInv (State.reset.present events) := stateInv_congr (s := State.reset) rfl stateInv_reset
  exact run_induction (fun _ _ hinv hstep => step_keeps_inv hinv hstep) hstart hrun

/-- Settles O34: the state after LAST is `exec_last_of_open`, its count is `bitlen_toNat`. -/
theorem lastCountFits : Obligations.LastCountFits := by
  unfold Obligations.LastCountFits
  intro t s u ht hinv hopen hexec
  obtain rfl := next_unique (exec_last_of_open hopen t) hexec
  have hlen := bitlen_toNat hinv hopen ht
  obtain ⟨-, hle⟩ := len_of_open hinv hopen
  rw [after_len, after_err, after_phase]
  exact ⟨hlen, by omega, err_eq_false_of_open hinv hopen, rfl⟩

/-- Settles O48: the only effects of a step on ERR are those of `RegEffect.err_cases` and of reset. -/
theorem errorFlagChanges : Obligations.ErrorFlagChanges := by
  unfold Obligations.ErrorFlagChanges
  intro s t hstep
  have hkept (h : t.err = s.err) {p q : Prop} :
      (s.err = false → t.err = true → p) ∧ (s.err = true → t.err = false → q) := by
    constructor <;> intro hs ht <;> simp [h, hs] at ht
  cases stepEffect_of_step hstep with
  | idle _ h => exact hkept (h ▸ rfl)
  | illegal _ _ _ _ _ h => exact hkept (err_of_registers h)
  | reset e rest hinputs he h =>
    have herr : t.err = false := h ▸ State.resetEngine_err _
    exact ⟨fun _ ht => absurd ht (by simp [herr]), fun _ _ => ⟨e, rest, hinputs, he.imp_right .inl⟩⟩
  | command c rest i hinputs hd h =>
    rcases h.err_cases with herr | ⟨rfl, herr⟩ | ⟨b, rfl, hopen, hfull, herr⟩
    · exact hkept herr
    · exact ⟨fun _ ht => absurd ht (by simp [herr]), fun _ _ => ⟨_, rest, hinputs, .inr (.inr ⟨c, rfl, hd⟩)⟩⟩
    · exact ⟨fun _ _ => ⟨c, b, rest, hinputs, hd, hopen, hfull⟩, fun _ ht => absurd ht (by simp [herr])⟩

/-- Settles O49: the only effects of a step on H are those of `RegEffect.h_cases` and of reset; a LAST that a header can write has a tail
of one or two blocks (`tailBytes_blocks_length`). -/
theorem digestStateWriters : Obligations.DigestStateWriters := by
  unfold Obligations.DigestStateWriters
  intro s t hstep hne
  cases stepEffect_of_step hstep with
  | idle _ h => exact absurd (h ▸ rfl) hne
  | reset e rest hinputs he h => exact ⟨e, rest, hinputs, .inl ⟨he.imp_right .inl, h ▸ State.resetEngine_h _⟩⟩
  | illegal _ _ _ _ _ h => exact absurd (h_of_registers h) hne
  | command c rest i hinputs hd h =>
    refine ⟨.command c, rest, hinputs, ?_⟩
    rcases h.h_cases with hh | ⟨rfl, hh⟩ | ⟨b, rfl, hopen, hfits, hh⟩ | ⟨l, rfl, hopen, hh⟩
    · exact absurd hh hne
    · exact .inl ⟨.inr (.inr ⟨c, rfl, hd⟩), hh⟩
    · exact .inr (.inl ⟨c, b, rfl, hd, hopen, hfits, hh⟩)
    · obtain ⟨hwf, -⟩ := wellFormed_and_encodeHeader_of_decode hd
      have hl := length_of_wellFormed_last hwf
      refine .inr (.inr ⟨c, l, rfl, hd, hopen, hl, hh, ?_⟩)
      rw [blocks_length, tailBytes_blocks_length l _ hl]

/-- Settles O44: both events are the reset input (`step_of_reset`). -/
theorem resetEvent : Obligations.ResetEvent := by
  unfold Obligations.ResetEvent
  intro s rest c hinputs
  have hreset {e : HostEvent} (h : s.inputs = e :: rest) (he : e = .reset ∨ ∃ c, e = .resetDuring c) :
      step s = .next { State.reset with inputs := rest, responses := s.responses } := by
    rw [step_of_reset h he, dropInput_eq h]
    rfl
  rcases hinputs with h | h
  · exact hreset h (.inl rfl)
  · exact hreset h (.inr ⟨c, rfl⟩)

/-- Settles O50: every command has one of the effects of `exec_effect`, and every step one of those of `exists_step`. -/
theorem nothingStops : Obligations.NothingStops := by
  unfold Obligations.NothingStops
  refine ⟨fun s => ?_, fun i s => ?_⟩
  · obtain ⟨t, hstep, -⟩ := exists_step s
    exact ⟨t, hstep⟩
  · obtain ⟨t, -, hexec, -⟩ := exec_effect i s
    exact ⟨t, hexec⟩

/-- Settles O51: with nothing presented every step is the idle one (`run_of_inputs_nil`). -/
theorem idleEngineKeepsState : Obligations.IdleEngineKeepsState := by
  unfold Obligations.IdleEngineKeepsState
  exact fun _ k hinputs => run_of_inputs_nil hinputs k

end Sys2Proof

/-! Codec laws, LE64, the tail of a message and the padded message (spec 40_codec.md R42, 41_padding.md R46 to R51), and the digest as
a function (43_digest.md R75). The key facts are that the bytes of a word or of a length are its consecutive byte fields, so that they
determine it, and that PAD is the full blocks of the message followed by the TAIL of its last fragment (`pad_eq_append`). -/

namespace Sys2Proof.Machine

open Sys2Proof.Spec

/-! ### PACK after UNPACK (R42) -/

/-- PACK puts the bytes of UNPACK back where they came from. -/
theorem pack_unpack (w : Word) : pack (unpack w).1 (unpack w).2.1 (unpack w).2.2.1 (unpack w).2.2.2 = w := by
  have hw := w.isLt
  apply BitVec.eq_of_toNat_eq
  simp only [pack_toNat, unpack, BitVec.extractLsb'_toNat, Nat.shiftRight_eq_div_pow]
  omega

/-! ### LE64 (R46) -/

/-- A byte of a word of a 64-bit value is a byte of the value. -/
theorem extractLsb'_byte_of_word (v : Len) {lo off : Nat} (h : off + 8 ≤ 32) :
    (v.extractLsb' lo 32).extractLsb' off 8 = v.extractLsb' (lo + off) 8 := by
  apply BitVec.eq_of_getLsbD_eq
  intro i hi
  have hin : off + i < 32 := by omega
  simp [hi, hin, Nat.add_assoc]

/-- Byte `k` of the length field is bits 8k+7 to 8k. -/
theorem le64_getElem? (v : Len) {k : Nat} (hk : k < 8) : (le64 v)[k]? = some (v.extractLsb' (8 * k) 8) := by
  have hword (lo off : Nat) (h : off + 8 ≤ 32) := extractLsb'_byte_of_word v (lo := lo) h
  interval_cases k
  · exact congrArg some (hword 0 0 (by decide))
  · exact congrArg some (hword 0 8 (by decide))
  · exact congrArg some (hword 0 16 (by decide))
  · exact congrArg some (hword 0 24 (by decide))
  · exact congrArg some (hword 32 0 (by decide))
  · exact congrArg some (hword 32 8 (by decide))
  · exact congrArg some (hword 32 16 (by decide))
  · exact congrArg some (hword 32 24 (by decide))

/-- The length field determines the count. -/
theorem le64_injective : Function.Injective le64 := by
  intro v v' h
  apply BitVec.eq_of_getLsbD_eq
  intro i hi
  have hbyte : some (v.extractLsb' (8 * (i / 8)) 8) = some (v'.extractLsb' (8 * (i / 8)) 8) := by
    rw [← le64_getElem? v (by omega), h, le64_getElem? v' (by omega)]
  have hbit := congrArg (fun b : Byte => b.getLsbD (i % 8)) (Option.some.inj hbyte)
  simpa [BitVec.getLsbD_extractLsb', Nat.mod_lt, Nat.div_add_mod] using hbit

/-! ### The tail (R49) -/

/-- The blocks of a list, read back as bytes, are its consecutive 64-byte pieces. -/
theorem blocks_toList (p : List Byte) :
    (blocks p).map Vector.toList = (List.range (p.length / 64)).map fun k => (p.drop (64 * k)).take 64 := by
  rw [blocks, List.map_map]
  apply List.map_congr_left
  intro k hk
  have hk : k < p.length / 64 := List.mem_range.mp hk
  exact ofList_toList (by rw [List.length_take, List.length_drop]; omega)

theorem blocks_single_toList {p : List Byte} (h : p.length = 64) : (blocks p).map Vector.toList = [p] := by
  rw [blocks_single h, List.map_singleton, ofList_toList h]

/-- A fragment of at most 55 bytes leaves room for the length field in its own block. -/
theorem tailBytes_of_le {t : List Byte} (h : t.length ≤ 55) (v : Len) :
    tailBytes t v = t ++ [0x80] ++ List.replicate (55 - t.length) 0 ++ le64 v := by
  have hzeros : padZeros t.length = 55 - t.length := by unfold padZeros; omega
  rw [tailBytes, hzeros, zeros]

theorem tailBytes_blocks_of_le {t : List Byte} (h : t.length ≤ 55) (v : Len) :
    (blocks (tailBytes t v)).map Vector.toList = [tailBytes t v] := by
  apply blocks_single_toList
  rw [tailBytes_of_le h]
  simp
  omega

/-- A fragment of 56 to 63 bytes fills one block, and the length field ends another. -/
theorem tailBytes_blocks_of_ge {t : List Byte} (hlow : 56 ≤ t.length) (hhigh : t.length ≤ 63) (v : Len) :
    (blocks (tailBytes t v)).map Vector.toList =
      [t ++ [0x80] ++ List.replicate (63 - t.length) 0, List.replicate 56 0 ++ le64 v] := by
  have hzeros : padZeros t.length = (63 - t.length) + 56 := by unfold padZeros; omega
  have hfirst : (t ++ [0x80] ++ List.replicate (63 - t.length) (0 : Byte)).length = 64 := by simp; omega
  have hsecond : (List.replicate 56 0 ++ le64 v).length = 64 := by simp
  have hsplit : tailBytes t v =
      (t ++ [0x80] ++ List.replicate (63 - t.length) 0) ++ (List.replicate 56 0 ++ le64 v) := by
    rw [tailBytes, hzeros, zeros, List.replicate_add]
    simp only [List.append_assoc]
  rw [hsplit, blocks_append _ (by rw [hfirst]), List.map_append, blocks_single_toList hfirst, blocks_single_toList hsecond,
    List.singleton_append]

/-! ### The padded message (R47, R51) -/

/-- PAD pads the last fragment only: before it stand the full blocks. -/
theorem pad_eq_append (m : List Byte) : pad m =
    m.take (64 * (m.length / 64)) ++ tailBytes (lastFragment m) (BitVec.ofNat 64 (8 * m.length)) := by
  have hzeros : padZeros (lastFragment m).length = padZeros m.length := by rw [lastFragment_length, padZeros_mod]
  rw [tailBytes, hzeros, pad, lastFragment]
  simp only [← List.append_assoc, List.take_append_drop]

theorem blocks_pad (m : List Byte) :
    blocks (pad m) = blocks m ++ blocks (tailBytes (lastFragment m) (BitVec.ofNat 64 (8 * m.length))) := by
  have hwhole : (m.take (64 * (m.length / 64))).length % 64 = 0 := by
    rw [List.length_take]
    omega
  rw [pad_eq_append, blocks_append _ hwhole, blocks_take]

theorem pad_length_mod (m : List Byte) : (pad m).length % 64 = 0 := by
  rw [pad_length]
  exact padZeros_spec m.length

/-- The number of blocks is the length with marker and length field, rounded up. -/
theorem blocks_pad_length (m : List Byte) : (blocks (pad m)).length = (m.length + 9 + 63) / 64 := by
  have hlt := padZeros_lt m.length
  have hmod := padZeros_spec m.length
  rw [blocks_length, pad_length]
  omega

theorem take_pad (m : List Byte) : (pad m).take m.length = m := by
  rw [pad, List.append_assoc, List.append_assoc, List.take_left]

/-- The padded message ends in its bit length, which says where the message ends. -/
theorem pad_injective {m m' : List Byte} (hm : 8 * m.length ≤ 2 ^ 64 - 1) (hm' : 8 * m'.length ≤ 2 ^ 64 - 1)
    (h : pad m = pad m') : m = m' := by
  obtain ⟨-, hfield⟩ := List.append_inj' h (by rw [le64_length, le64_length])
  have hbits := congrArg BitVec.toNat (le64_injective hfield)
  rw [BitVec.toNat_ofNat, BitVec.toNat_ofNat, Nat.mod_eq_of_lt (by omega), Nat.mod_eq_of_lt (by omega)] at hbits
  have hlen : m.length = m'.length := by omega
  rw [← take_pad m, ← take_pad m', h, hlen]

end Sys2Proof.Machine

namespace Sys2Proof

open Sys2Proof.Machine Sys2Proof.Spec

/-- Settles O11: each of PACK and UNPACK undoes the other (`unpack_pack`, `pack_unpack`). -/
theorem codecRoundTrip : Obligations.CodecRoundTrip := by
  unfold Obligations.CodecRoundTrip
  exact ⟨unpack_pack, pack_unpack⟩

/-- Settles O14: the bytes are those of `le64_getElem?`; the examples are evaluated. -/
theorem lengthFieldLittleEndian : Obligations.LengthFieldLittleEndian := by
  unfold Obligations.LengthFieldLittleEndian
  exact ⟨fun v => ⟨le64_length v, fun k hk => le64_getElem? v hk⟩, by decide, by decide, by decide, by decide⟩

/-- Settles O17: the two cases are `tailBytes_blocks_of_le` and `tailBytes_blocks_of_ge`. -/
theorem tailBlocks : Obligations.TailBlocks := by
  unfold Obligations.TailBlocks
  exact fun t v => ⟨fun h => ⟨tailBytes_of_le h v, tailBytes_blocks_of_le h v⟩,
    fun hlow hhigh => tailBytes_blocks_of_ge hlow hhigh v⟩

/-- Settles O16: the length is whole blocks (`pad_length_mod`), counted by `blocks_pad_length`; the message is the first part of its
padding (`take_pad`) and is determined by it (`pad_injective`). -/
theorem paddingProperties : Obligations.PaddingProperties := by
  unfold Obligations.PaddingProperties
  refine ⟨fun m => ?_, by decide, fun m m' hm hm' h => pad_injective hm hm' h⟩
  have hmod := pad_length_mod m
  have hlen := pad_length m
  have hcount := blocks_pad_length m
  exact ⟨hmod, by omega, hcount, by omega, by omega, take_pad m⟩

/-- Settles O18: the blocks of the padded message are `blocks_pad`, and those of the message are its consecutive pieces
(`blocks_toList`). -/
theorem paddingDecomposition : Obligations.PaddingDecomposition := by
  unfold Obligations.PaddingDecomposition
  exact fun m => ⟨blocks_pad m, blocks_toList m⟩

/-- Settles O57: the fold is `absorb`, and SER has twenty bytes; the six known answers are evaluated. -/
theorem digestOfMessage : Obligations.DigestOfMessage := by
  unfold Obligations.DigestOfMessage
  exact ⟨fun _ => rfl, fun _ => ser_length _, by decide +kernel, by decide +kernel, by decide +kernel, by decide +kernel,
    by decide +kernel, by decide +kernel⟩

end Sys2Proof

/-! Rotation (spec 00_scope.md R6) and the independence of the two lines (42_compression.md R61). The key fact is that under any
schedule each line has taken its own first steps in order, as many as the schedule gave it (`runSchedule_eq`). -/

namespace Sys2Proof.Machine

/-- A rotated bit comes from one of the two shifts. -/
theorem rol_getLsbD (x : Word) {n i : Nat} (hn : n < 32) (hi : i < 32) :
    (rol x n).getLsbD ((i + n) % 32) = x.getLsbD i := by
  rw [rol, BitVec.getLsbD_or, BitVec.getLsbD_shiftLeft, BitVec.getLsbD_ushiftRight]
  by_cases hwrap : i + n < 32
  · have hout : 32 ≤ 32 - n + (i + n) := by omega
    rw [Nat.mod_eq_of_lt hwrap, Nat.add_sub_cancel, BitVec.getLsbD_of_ge x _ hout]
    simp [hwrap]
  · have hpos : (i + n) % 32 = i + n - 32 := by omega
    have hback : 32 - n + (i + n - 32) = i := by omega
    have hlow : i + n - 32 < n := by omega
    rw [hpos, hback]
    simp [hlow]

/-- Step number `k` of a line (R60, R61): step `k % 16` of round `k / 16`. -/
def lineStep (side : Side) (x : Vector Word 16) (g : Regs) (k : Nat) : Regs :=
  stepRegs side x (Fin.ofNat 5 (k / 16)) (Fin.ofNat 16 k) g

/-- A line after its first `n` steps. -/
def linePrefix (side : Side) (h : DigestState) (x : Vector Word 16) (n : Nat) : Regs :=
  (List.range n).foldl (lineStep side x) (loadRegs h)

theorem linePrefix_succ (side : Side) (h : DigestState) (x : Vector Word 16) (n : Nat) :
    linePrefix side h x (n + 1) = lineStep side x (linePrefix side h x n) n := by
  rw [linePrefix, List.range_succ, List.foldl_append]
  rfl

/-- A whole line is its first 80 steps. -/
theorem linePrefix_eighty (side : Side) (h : DigestState) (x : Vector Word 16) : linePrefix side h x 80 = line side h x := by
  rw [line_eq_foldl, lineOrder_eq, List.foldl_map]
  rfl

/-- A schedule advances each line by the steps it gives to that line, whatever it gives to the other. -/
theorem runSchedule_eq (h : DigestState) (x : Vector Word 16) (schedule : List Side) :
    runSchedule h x schedule =
      ((linePrefix .left h x (schedule.count .left), schedule.count .left),
       (linePrefix .right h x (schedule.count .right), schedule.count .right)) := by
  induction schedule using List.reverseRecOn with
  | nil => rfl
  | append_singleton schedule side ih =>
    rw [runSchedule] at ih
    rw [runSchedule, List.foldl_append, ih, List.count_append, List.count_append]
    cases side with
    | left => simp [linePrefix_succ, lineStep]
    | right => simp [linePrefix_succ, lineStep]

end Sys2Proof.Machine

namespace Sys2Proof

open Sys2Proof.Machine

/-- Settles O19: the bit stays in the word with the left shift or comes back with the right one (`rol_getLsbD`). -/
theorem rotationMovesBits : Obligations.RotationMovesBits := by
  unfold Obligations.RotationMovesBits
  exact fun x _ _ _ hn hi => rol_getLsbD x hn hi

/-- Settles O27: after 80 steps each (`runSchedule_eq`) the lines are complete (`linePrefix_eighty`). -/
theorem lineSchedulesAgree : Obligations.LineSchedulesAgree := by
  unfold Obligations.LineSchedulesAgree
  intro h x schedule hleft hright
  rw [runSchedule_eq, hleft, hright, linePrefix_eighty, linePrefix_eighty]
  exact ⟨rfl, rfl⟩

end Sys2Proof

/-! What an answer depends on (spec 10_state.md R10, 43_digest.md R72, R77, R78, 20_memory.md R26). The key fact is that two engines that
look alike, with one PHASE, one ERR, the same room for a block and in FINAL the same digest, answer a command alike
(`takeCommand_alike`); with equal registers they also end alike, so that runs can be compared command by command (`run_alike`). -/

namespace Sys2Proof.Machine

open Sys2Proof.Spec

/-! ### Two engines that one command cannot tell apart -/

/-- What shows of an engine in the answer to one command. -/
structure LookAlike (s s' : State) : Prop where
  phase_eq : s.phase = s'.phase
  err_eq : s.err = s'.err
  full_iff : s.len.toNat + 512 > 2 ^ 64 - 1 ↔ s'.len.toNat + 512 > 2 ^ 64 - 1
  digest_eq : s.phase = .final → s.h = s'.h

/-- Two outcomes with one answer, one phase and one error bit, and with equal H and LEN if they were equal before. -/
def AnswerAlike (s s' : State) (o o' : Host.Outcome State Fault Refusal) : Prop :=
  ∃ h len h' len' p err cause rw rdata, o = .next (after s h len p err cause rw rdata) ∧
    o' = .next (after s' h' len' p err cause rw rdata) ∧ (s.h = s'.h → s.len = s'.len → h = h' ∧ len = len')

theorem answerAlike_of_after {s s' : State} {o o' : Host.Outcome State Fault Refusal} {h h' : DigestState} {len len' : Len}
    {p : Phase} {err err' : Bool} {cause : Nat} {rw : Word} {rdata : List Byte}
    (ho : o = .next (after s h len p err cause rw rdata)) (ho' : o' = .next (after s' h' len' p err' cause rw rdata))
    (herr : err = err') (heq : s.h = s'.h → s.len = s'.len → h = h' ∧ len = len') : AnswerAlike s s' o o' := by
  subst herr
  exact ⟨h, len, h', len', p, err, cause, rw, rdata, ho, ho', heq⟩

theorem lookAlike_of_registers {s s' : State} (h : s.registers = s'.registers) : LookAlike s s' := by
  obtain ⟨hh, hlen, hphase, herr⟩ := registers_eq.mp h
  exact ⟨hphase, herr, by rw [hlen], fun _ => hh⟩

section
variable {s s' : State} (hlook : LookAlike s s')
include hlook

/-- Commands that only answer, with one answer. -/
theorem answerAlike_of_answered {o o' : Host.Outcome State Fault Refusal} {cause : Nat} {rw : Word} {rdata : List Byte}
    (ho : o = .next (answered s cause rw rdata)) (ho' : o' = .next (answered s' cause rw rdata)) : AnswerAlike s s' o o' := by
  rw [answered, ← hlook.phase_eq] at ho'
  exact answerAlike_of_after ho ho' hlook.err_eq fun hh hlen => ⟨hh, hlen⟩

theorem LookAlike.open_iff : Open s ↔ Open s' := by rw [Open, Open, hlook.phase_eq]

theorem block_alike (data : Block) : AnswerAlike s s' (exec (.block data) s) (exec (.block data) s') := by
  by_cases hopen : Open s
  · have hopen' := hlook.open_iff.mp hopen
    by_cases hfull : s.len.toNat + 512 > 2 ^ 64 - 1
    · exact answerAlike_of_after (exec_block_of_full hopen hfull data)
        (exec_block_of_full hopen' (hlook.full_iff.mp hfull) data) rfl fun hh hlen => ⟨hh, hlen⟩
    · have hfits' := mt hlook.full_iff.mpr hfull
      exact answerAlike_of_after (exec_block_of_fits hopen (Nat.le_of_not_gt hfull) data)
        (exec_block_of_fits hopen' (Nat.le_of_not_gt hfits') data) hlook.err_eq
        fun hh hlen => ⟨congrArg (cf · data) hh, congrArg (· + 512) hlen⟩
  · exact answerAlike_of_answered hlook (exec_block_of_not_open hopen data)
      (exec_block_of_not_open (mt hlook.open_iff.mpr hopen) data)

theorem last_alike (t : List Byte) : AnswerAlike s s' (exec (.last t) s) (exec (.last t) s') := by
  by_cases hopen : Open s
  · refine answerAlike_of_after (exec_last_of_open hopen t) (exec_last_of_open (hlook.open_iff.mp hopen) t) hlook.err_eq
      fun hh hlen => ?_
    rw [State.bitlen, State.bitlen, hh, hlen]
    exact ⟨rfl, rfl⟩
  · exact answerAlike_of_answered hlook (exec_last_of_not_open hopen t)
      (exec_last_of_not_open (mt hlook.open_iff.mpr hopen) t)

theorem read_alike : AnswerAlike s s' (exec .read s) (exec .read s') := by
  by_cases hfinal : s.phase = .final
  · refine answerAlike_of_answered hlook (exec_read_of_final hfinal) ?_
    rw [hlook.digest_eq hfinal]
    exact exec_read_of_final (hlook.phase_eq ▸ hfinal)
  · exact answerAlike_of_answered hlook (exec_read_of_not_final hfinal) (exec_read_of_not_final (hlook.phase_eq ▸ hfinal))

theorem exec_alike (i : Instr) : AnswerAlike s s' (exec i s) (exec i s') := by
  cases i with
  | stat => exact answerAlike_of_answered hlook (exec_stat s) (exec_stat s')
  | init => exact answerAlike_of_after (exec_init s) (exec_init s') rfl fun _ _ => ⟨rfl, rfl⟩
  | block data => exact block_alike hlook data
  | last t => exact last_alike hlook t
  | read => exact read_alike hlook
  | pack b0 b1 b2 b3 => exact answerAlike_of_answered hlook (exec_pack b0 b1 b2 b3 s) (exec_pack b0 b1 b2 b3 s')
  | unpack w => exact answerAlike_of_answered hlook (exec_unpack w s) (exec_unpack w s')

end

/-- An illegal header only answers (60_exceptions.md R83). -/
theorem takeCommand_of_error {c : Command} {e : Illegal} (hd : decode c = .error e) (s : State) :
    takeCommand c s = .next (answered s 3 0 []) := by
  rw [takeCommand_error hd, State.reject, State.respond_eq_answered]
  rfl

/-- Engines that look alike answer every command alike. -/
theorem takeCommand_alike {s s' : State} (hlook : LookAlike s s') (c : Command) :
    AnswerAlike s s' (takeCommand c s) (takeCommand c s') := by
  rcases decode_total c with ⟨i, hd⟩ | ⟨e, hd⟩
  · rw [takeCommand_ok hd, takeCommand_ok hd]
    exact exec_alike hlook i
  · exact answerAlike_of_answered hlook (takeCommand_of_error hd s) (takeCommand_of_error hd s')

/-! ### Engines with equal registers -/

/-- Two runs from `s` and `s'` ended in `t` and `t'` with equal registers and the same further responses `rs`. -/
structure EndAlike (s s' t t' : State) (rs : List Response) : Prop where
  registers_eq : t.registers = t'.registers
  responses_left : t.responses = s.responses ++ rs
  responses_right : t'.responses = s'.responses ++ rs

theorem EndAlike.trans {s s' t t' u u' : State} {rs rs' : List Response} (h : EndAlike s s' t t' rs)
    (h' : EndAlike t t' u u' rs') : EndAlike s s' u u' (rs ++ rs') where
  registers_eq := h'.registers_eq
  responses_left := by rw [h'.responses_left, h.responses_left, List.append_assoc]
  responses_right := by rw [h'.responses_right, h.responses_right, List.append_assoc]

theorem endAlike_of_registers {s s' t t' : State} (hregisters : t.registers = t'.registers) (hleft : t.responses = s.responses)
    (hright : t'.responses = s'.responses) : EndAlike s s' t t' [] :=
  ⟨hregisters, by rw [hleft, List.append_nil], by rw [hright, List.append_nil]⟩

/-- One command on two engines with equal registers, whatever is presented to each afterwards. -/
theorem step_command_alike {s s' : State} {c : Command} {rest rest' : List HostEvent}
    (hregisters : s.registers = s'.registers) (hs : s.inputs = .command c :: rest) (hs' : s'.inputs = .command c :: rest') :
    ∃ t t' r, step s = .next t ∧ step s' = .next t' ∧ t.inputs = rest ∧ t'.inputs = rest' ∧ EndAlike s s' t t' [r] := by
  obtain ⟨hh, hlen, -, -⟩ := registers_eq.mp hregisters
  have hlook : LookAlike { s with inputs := rest } { s' with inputs := rest' } := lookAlike_of_registers hregisters
  obtain ⟨h, len, h', len', p, err, cause, rw, rdata, htake, htake', heq⟩ := takeCommand_alike hlook c
  obtain ⟨rfl, rfl⟩ := heq hh hlen
  exact ⟨_, _, ⟨header err p cause, rw, results rdata⟩, (step_of_command hs).trans htake, (step_of_command hs').trans htake',
    rfl, rfl, ⟨rfl, rfl, rfl⟩⟩

/-- The same list of commands on two engines with equal registers, whatever is presented to each afterwards: each command is taken
in its turn and has one response. -/
theorem run_commands_alike (cs : List Command) {s s' : State} {rest rest' : List HostEvent}
    (hregisters : s.registers = s'.registers) (hs : s.inputs = cs.map .command ++ rest)
    (hs' : s'.inputs = cs.map .command ++ rest') :
    ∃ t t' rs, Host.Core.run Sys2Proof.core cs.length s = .next t ∧ Host.Core.run Sys2Proof.core cs.length s' = .next t' ∧
      t.inputs = rest ∧ t'.inputs = rest' ∧ EndAlike s s' t t' rs ∧ rs.length = cs.length := by
  induction cs generalizing s s' with
  | nil => exact ⟨s, s', [], run_zero s, run_zero s', hs, hs', endAlike_of_registers hregisters rfl rfl, rfl⟩
  | cons c cs ih =>
    obtain ⟨t, t', r, hstep, hstep', ht, ht', halike⟩ := step_command_alike hregisters hs hs'
    obtain ⟨u, u', rs, hrun, hrun', hu, hu', halike', hlen⟩ := ih halike.registers_eq ht ht'
    exact ⟨u, u', r :: rs, (run_succ cs.length hstep).trans hrun, (run_succ cs.length hstep').trans hrun', hu, hu',
      halike.trans halike', congrArg Nat.succ hlen⟩

/-- Any one event, or none, on two engines with equal registers. -/
theorem step_alike {s s' : State} (hregisters : s.registers = s'.registers) (hinputs : s.inputs = s'.inputs) :
    ∃ t t' rs, step s = .next t ∧ step s' = .next t' ∧ t.inputs = t'.inputs ∧ EndAlike s s' t t' rs := by
  cases hs : s.inputs with
  | nil =>
    have hs' : s'.inputs = [] := hinputs ▸ hs
    exact ⟨s, s', [], step_nil hs, step_nil hs', hinputs, endAlike_of_registers hregisters rfl rfl⟩
  | cons e rest =>
    have hs' : s'.inputs = e :: rest := hinputs ▸ hs
    have hreset (he : e = .reset ∨ ∃ c, e = .resetDuring c) :
        ∃ t t' rs, step s = .next t ∧ step s' = .next t' ∧ t.inputs = t'.inputs ∧ EndAlike s s' t t' rs :=
      ⟨_, _, [], step_of_reset hs he, step_of_reset hs' he, congrArg List.tail hinputs, endAlike_of_registers rfl rfl rfl⟩
    cases e with
    | command c =>
      obtain ⟨t, t', r, hstep, hstep', ht, ht', halike⟩ := step_command_alike hregisters hs hs'
      exact ⟨t, t', [r], hstep, hstep', ht.trans ht'.symm, halike⟩
    | reset => exact hreset (.inl rfl)
    | resetDuring c => exact hreset (.inr ⟨c, rfl⟩)

theorem run_alike (k : Nat) {s s' : State} (hregisters : s.registers = s'.registers) (hinputs : s.inputs = s'.inputs) :
    ∃ t t' rs, Host.Core.run Sys2Proof.core k s = .next t ∧ Host.Core.run Sys2Proof.core k s' = .next t' ∧
      t.inputs = t'.inputs ∧ EndAlike s s' t t' rs := by
  induction k generalizing s s' with
  | zero => exact ⟨s, s', [], run_zero s, run_zero s', hinputs, endAlike_of_registers hregisters rfl rfl⟩
  | succ k ih =>
    obtain ⟨t, t', rs, hstep, hstep', ht, halike⟩ := step_alike hregisters hinputs
    obtain ⟨u, u', rs', hrun, hrun', hu, halike'⟩ := ih halike.registers_eq ht
    exact ⟨u, u', rs ++ rs', (run_succ k hstep).trans hrun, (run_succ k hstep').trans hrun', hu, halike.trans halike'⟩

/-! ### Passive commands (R77) -/

/-- A command that belongs to no message is only answered. -/
theorem takeCommand_of_passive {c : Command} {s : State} (hpassive : Passive c s) :
    ∃ cause rw rdata, takeCommand c s = .next (answered s cause rw rdata) := by
  cases hd : decode c with
  | error e => exact ⟨_, _, _, takeCommand_of_error hd s⟩
  | ok i =>
    rw [Passive, hd] at hpassive
    rw [takeCommand_ok hd]
    cases i with
    | stat => exact ⟨_, _, _, exec_stat s⟩
    | init => exact hpassive.elim
    | block data => exact ⟨_, _, _, exec_block_of_not_open ((not_open_iff s).mpr hpassive) data⟩
    | last t => exact ⟨_, _, _, exec_last_of_not_open ((not_open_iff s).mpr hpassive) t⟩
    | read =>
      by_cases hfinal : s.phase = .final
      · exact ⟨_, _, _, exec_read_of_final hfinal⟩
      · exact ⟨_, _, _, exec_read_of_not_final hfinal⟩
    | pack b0 b1 b2 b3 => exact ⟨_, _, _, exec_pack b0 b1 b2 b3 s⟩
    | unpack w => exact ⟨_, _, _, exec_unpack w s⟩

/-- The step on a passive command changes no register and adds one response. -/
theorem step_of_passive {s : State} {c : Command} {rest : List HostEvent} (hinputs : s.inputs = .command c :: rest)
    (hpassive : Passive c s) :
    ∃ t r, step s = .next t ∧ t.inputs = rest ∧ t.registers = s.registers ∧ t.responses = s.responses ++ [r] := by
  have hpassive : Passive c { s with inputs := rest } := hpassive
  obtain ⟨cause, rw, rdata, htake⟩ := takeCommand_of_passive hpassive
  exact ⟨_, ⟨header s.err s.phase cause, rw, results rdata⟩, (step_of_command hinputs).trans htake, rfl, rfl, rfl⟩

end Sys2Proof.Machine

namespace Sys2Proof

open Sys2Proof.Machine Sys2Proof.Spec

/-- Settles O52: the list of commands is taken one by one (`run_commands_alike`, of the engine with itself). -/
theorem oneResponsePerCommandInOrder : Obligations.OneResponsePerCommandInOrder := by
  unfold Obligations.OneResponsePerCommandInOrder
  intro s cs rest hinputs
  obtain ⟨t, _, rs, hrun, -, ht, -, halike, hlen⟩ := run_commands_alike cs rfl hinputs hinputs
  exact ⟨t, rs, hrun, ht, halike.responses_left, hlen⟩

/-- Settles O53: engines with equal registers take every event alike (`run_alike`). -/
theorem registersDetermineBehaviour : Obligations.RegistersDetermineBehaviour := by
  unfold Obligations.RegistersDetermineBehaviour
  intro s s' k hregisters hinputs
  obtain ⟨t, t', rs, hrun, hrun', ht, halike⟩ := run_alike k hregisters hinputs
  exact ⟨t, t', rs, hrun, hrun', halike.registers_eq, ht, halike.responses_left, halike.responses_right⟩

/-- Settles O54: outside FINAL two such engines look alike, so they answer alike (`takeCommand_alike`). -/
theorem partialResultHidden : Obligations.PartialResultHidden := by
  unfold Obligations.PartialResultHidden
  intro s s' c rest hs hs' hphase herr hresponses hfinal hfull
  have hlook : LookAlike { s with inputs := rest } { s' with inputs := rest } :=
    ⟨hphase, herr, hfull, fun h => absurd h hfinal⟩
  obtain ⟨h, len, h', len', p, err, cause, rw, rdata, htake, htake', -⟩ := takeCommand_alike hlook c
  refine ⟨_, _, (step_of_command hs).trans htake, (step_of_command hs').trans htake', ?_, rfl, rfl⟩
  rw [after_responses, after_responses, hresponses]

/-- Settles O60: before the inserted command both engines do the same (`run_commands_alike`), it changes no register
(`step_of_passive`), so after it they do the same again. -/
theorem passiveCommandsInvisible : Obligations.PassiveCommandsInvisible := by
  unfold Obligations.PassiveCommandsInvisible
  intro s t pre post c hinputs hrun hpassive
  obtain ⟨t₁, t', rs, hrun₁, hpre', ht, ht', halike, hlen⟩ := run_commands_alike pre (s := s)
    (s' := { s with inputs := pre.map .command ++ post.map .command }) rfl hinputs rfl
  obtain rfl := next_unique hrun hrun₁
  obtain ⟨v, r, hstep, hv, hregisters, hresponses⟩ := step_of_passive ht hpassive
  obtain ⟨u, u', rs', hpost, hpost', -, -, halike', hlen'⟩ := run_commands_alike post (rest := []) (rest' := [])
    (hregisters.trans halike.registers_eq) (by rw [hv, List.append_nil]) (by rw [ht', List.append_nil])
  refine ⟨u, u', rs, r, rs', ?_, (run_add _ _ hpre').trans hpost', halike'.registers_eq, ?_, ?_, hlen, hlen'⟩
  · rw [Nat.add_assoc, Nat.add_comm 1, run_add _ _ hrun, run_succ _ hstep, hpost]
  · rw [halike'.responses_left, hresponses, halike.responses_left]
  · rw [halike'.responses_right, halike.responses_right]

end Sys2Proof

/-! Engines side by side (spec 60_exceptions.md R92). The key fact is that a step of an engine is a function of that engine alone
(`nextState`), so that a step of the list modifies one entry by it. -/

namespace Sys2Proof.Machine

/-- The state a step answers; every step answers one (`step_eq_nextState`). -/
def nextState (s : State) : State :=
  match step s with
  | .next t => t
  | .fault _ => s
  | .refused _ => s

theorem step_eq_nextState (s : State) : step s = .next (nextState s) := by
  obtain ⟨t, hstep, -⟩ := exists_step s
  rw [nextState, hstep]

/-- A step of the engine at `k` replaces that engine's state by the next one. -/
theorem stepEngine_eq (k : Nat) (es : List State) : stepEngine k es = .next (es.modify k nextState) := by
  unfold stepEngine
  rw [List.modify_eq_set_getElem?]
  cases es[k]? with
  | none => rfl
  | some s =>
    simp only [step_eq_nextState]
    rfl

end Sys2Proof.Machine

namespace Sys2Proof

open Sys2Proof.Machine

/-- Settles O55: a step modifies one entry of the list (`stepEngine_eq`), which leaves the others and commutes with modifying
another. -/
theorem enginesAreIndependent : Obligations.EnginesAreIndependent := by
  unfold Obligations.EnginesAreIndependent
  refine ⟨fun k j es fs hne hk => ?_, fun k j es fs gs hne hk hj => ?_⟩
  · rw [stepEngine_eq, Host.Outcome.next.injEq] at hk
    rw [← hk, List.getElem?_modify_ne _ _ hne]
  · rw [stepEngine_eq, Host.Outcome.next.injEq] at hk hj
    refine ⟨_, stepEngine_eq j es, ?_⟩
    rw [stepEngine_eq, ← hj, ← hk, List.modify_modify_ne _ _ _ hne]

end Sys2Proof

/-! The expansion of DIGEST and the engine that runs it (spec 30_encoding.md R38, 43_digest.md R77). The key facts are that a presented
encoding is taken as its command (`step_encode`), that the BLOCKs of a message leave the compressions of its blocks and 512 bits each in the
registers (`run_encoded_blocks`), and that PAD is those blocks followed by the TAIL that LAST absorbs (`blocks_pad`). -/

namespace Sys2Proof.Machine

open Sys2Proof.Spec

/-! ### The expansion (R38) -/

theorem expandDigest_eq (m : List Byte) :
    expandDigest m = .init :: ((blocks m).map .block ++ [.last (lastFragment m), .read]) := by
  simp [expandDigest]

theorem expandDigest_length (m : List Byte) : (expandDigest m).length = m.length / 64 + 3 := by
  simp [expandDigest_eq]

theorem lastFragment_length_le (m : List Byte) : (lastFragment m).length ≤ 63 := by
  rw [lastFragment_length]
  omega

theorem wellFormed_of_mem_expandDigest {m : List Byte} {i : Instr} (hi : i ∈ expandDigest m) : i.wellFormed = true := by
  simp only [expandDigest_eq, List.mem_cons, List.mem_append, List.mem_map, List.not_mem_nil, or_false] at hi
  rcases hi with rfl | ⟨b, -, rfl⟩ | rfl | rfl
  · rfl
  · rfl
  · exact decide_eq_true (lastFragment_length_le m)
  · rfl

/-! ### The engine on the expansion (R77) -/

/-- A presented encoding leaves the registers and the response of its command, and is taken off the port. -/
theorem step_encode {s : State} {i : Instr} {rest : List HostEvent} {h : DigestState} {len : Len} {p : Phase} {err : Bool}
    {cause : Nat} {rw : Word} {rdata : List Byte} (hwf : i.wellFormed = true)
    (hinputs : s.inputs = .command (encode i) :: rest) (hexec : exec i s = .next (after s h len p err cause rw rdata)) :
    ∃ t, step s = .next t ∧ t.inputs = rest ∧ t.registers = (h, len, p, err) ∧
      t.responses = s.responses ++ [⟨header err p cause, rw, results rdata⟩] := by
  have hstep : step s = exec i { s with inputs := rest } := step_of_decode hinputs (decodeEncodeRoundTrip i hwf)
  have hlook : LookAlike s { s with inputs := rest } := lookAlike_of_registers rfl
  obtain ⟨_, _, _, _, _, _, _, _, _, hs, hs', heq⟩ := exec_alike hlook i
  obtain ⟨rfl, rfl⟩ := heq rfl rfl
  have hsame := next_unique hs hexec
  exact ⟨_, hstep.trans hs', rfl, congrArg State.registers hsame, congrArg State.responses hsame⟩

/-- A list of BLOCKs that fits is absorbed in order, each acknowledged. -/
theorem run_encoded_blocks (bs : List Block) {s : State} {rest : List HostEvent}
    (hinputs : s.inputs = bs.map (fun b => .command (encode (.block b))) ++ rest) (hopen : Open s) (herr : s.err = false)
    (hfits : s.len.toNat + 512 * bs.length ≤ 2 ^ 64 - 1) :
    ∃ t : State, Host.Core.run Sys2Proof.core bs.length s = .next t ∧ t.inputs = rest ∧ Open t ∧ t.err = false ∧
      t.h = absorb s.h bs ∧ t.len.toNat = s.len.toNat + 512 * bs.length ∧
      t.responses = s.responses ++ List.replicate bs.length ⟨0x09, 0, results []⟩ := by
  induction bs generalizing s with
  | nil => exact ⟨s, run_zero s, hinputs, hopen, herr, rfl, by simp, by simp⟩
  | cons b bs ih =>
    rw [List.length_cons, Nat.mul_succ, Nat.add_comm (512 * bs.length), ← Nat.add_assoc] at hfits
    have hroom : s.len.toNat + 512 ≤ 2 ^ 64 - 1 := Nat.le_of_add_right_le hfits
    obtain ⟨u, hstep, hu, huregisters, huresponses⟩ :=
      step_encode (i := .block b) rfl hinputs (exec_block_of_fits hopen hroom b)
    obtain ⟨huh, hulen, huphase, huerr⟩ := registers_eq.mp huregisters
    have hulen : u.len.toNat = s.len.toNat + 512 := by rw [hulen, len_add_block hroom]
    obtain ⟨t, hrun, ht, htopen, hterr, hth, htlen, htresponses⟩ :=
      ih hu (.inr huphase) (huerr.trans herr) (hulen ▸ hfits)
    refine ⟨t, (run_succ bs.length hstep).trans hrun, ht, htopen, hterr, by rw [hth, huh, absorb_cons], ?_, ?_⟩
    · rw [htlen, hulen, List.length_cons, Nat.mul_succ, Nat.add_assoc, Nat.add_comm 512]
    · rw [htresponses, huresponses, herr, List.append_assoc, List.length_cons, List.replicate_succ, List.singleton_append]
      rfl

/-- LAST and READ end a message whose full blocks are absorbed: the answer is the serialised digest state after the tail. -/
theorem run_last_read {s : State} {l : List Byte} {rest : List HostEvent} (hl : l.length ≤ 63)
    (hinputs : s.inputs = .command (encode (.last l)) :: .command (encode .read) :: rest) (hopen : Open s)
    (herr : s.err = false) :
    ∃ t : State, Host.Core.run Sys2Proof.core 2 s = .next t ∧ t.inputs = rest ∧ t.phase = .final ∧ t.err = false ∧
      t.len = s.bitlen l.length ∧
      t.responses = s.responses ++ [⟨0x11, 0, results []⟩] ++
        [⟨0x11, 0, results (ser (absorb s.h (blocks (tailBytes l (s.bitlen l.length)))))⟩] := by
  obtain ⟨u, hlast, hu, huregisters, huresponses⟩ :=
    step_encode (i := .last l) (decide_eq_true hl) hinputs (exec_last_of_open hopen l)
  obtain ⟨huh, hulen, huphase, huerr⟩ := registers_eq.mp huregisters
  obtain ⟨t, hread, ht, htregisters, htresponses⟩ :=
    step_encode (i := .read) rfl hu (exec_read_of_final huphase)
  obtain ⟨-, htlen, htphase, hterr⟩ := registers_eq.mp htregisters
  refine ⟨t, (run_succ 1 hlast).trans (run_succ 0 hread), ht, htphase.trans huphase, ?_, htlen.trans hulen, ?_⟩
  · rw [hterr, huerr, herr]
  · rw [htresponses, huresponses, huh, huphase, huerr, herr]
    rfl

/-- The engine on the commands of a message: INIT, its full blocks, its last fragment, READ. -/
theorem run_expandDigest {m : List Byte} {s : State} {rest : List HostEvent} (hm : m.length ≤ 2 ^ 61 - 1)
    (hinputs : s.inputs = (expandDigest m).map (fun i => .command (encode i)) ++ rest) :
    ∃ t : State, Host.Core.run Sys2Proof.core (m.length / 64 + 3) s = .next t ∧ t.inputs = rest ∧ t.phase = .final ∧
      t.err = false ∧ t.len.toNat = 8 * m.length ∧
      t.responses = s.responses ++
        (⟨0x01, 0, results []⟩ :: List.replicate (m.length / 64) ⟨0x09, 0, results []⟩ ++ [⟨0x11, 0, results []⟩]) ++
        [⟨0x11, 0, results (digest m)⟩] := by
  have hinputs : s.inputs = .command (encode .init) ::
      ((blocks m).map (fun b => .command (encode (.block b))) ++
        .command (encode (.last (lastFragment m))) :: .command (encode .read) :: rest) := by
    rw [hinputs, expandDigest_eq]
    simp
  obtain ⟨u, hinit, hu, huregisters, huresponses⟩ := step_encode (i := .init) rfl hinputs (exec_init _)
  obtain ⟨huh, hulen, huphase, huerr⟩ := registers_eq.mp huregisters
  have hzero : u.len.toNat = 0 := by rw [hulen]; rfl
  obtain ⟨v, hblocks, hv, hvopen, hverr, hvh, hvlen, hvresponses⟩ :=
    run_encoded_blocks (blocks m) hu (.inl huphase) huerr (by rw [blocks_length]; omega)
  obtain ⟨t, hlast, ht, htphase, hterr, htlen, htresponses⟩ := run_last_read (lastFragment_length_le m) hv hvopen hverr
  rw [hzero, Nat.zero_add, blocks_length] at hvlen
  have hbits : v.bitlen (lastFragment m).length = BitVec.ofNat 64 (8 * m.length) := by
    apply BitVec.eq_of_toNat_eq
    rw [State.bitlen, BitVec.toNat_add, hvlen, lastFragment_length, BitVec.toNat_ofNat, BitVec.toNat_ofNat]
    omega
  have hdigest : ser (absorb v.h (blocks (tailBytes (lastFragment m) (v.bitlen (lastFragment m).length)))) = digest m := by
    rw [hvh, huh, hbits, digest, blocks_pad, absorb_append]
  refine ⟨t, ?_, ht, htphase, hterr, ?_, ?_⟩
  · rw [run_succ _ hinit, run_add _ 2 (blocks_length m ▸ hblocks), hlast]
  · rw [htlen, hbits, BitVec.toNat_ofNat, Nat.mod_eq_of_lt (by omega)]
  · rw [htresponses, hdigest, hvresponses, huresponses, blocks_length]
    simp only [List.append_assoc, List.cons_append, List.nil_append]
    rfl

end Sys2Proof.Machine

namespace Sys2Proof

open Sys2Proof.Machine Sys2Proof.Spec

/-- Settles O56: the list is `expandDigest_eq`, and every command of it is well formed, so its encoding decodes to it
(`decodeEncodeRoundTrip`). -/
theorem digestExpansion : Obligations.DigestExpansion := by
  unfold Obligations.DigestExpansion
  intro m
  refine ⟨expandDigest_eq m, expandDigest_length m, lastFragment_length m, fun i hi => wellFormed_of_mem_expandDigest hi, ?_⟩
  rw [assembleLine, List.map_map]
  apply List.map_congr_left
  intro i hi
  exact decodeEncodeRoundTrip i (wellFormed_of_mem_expandDigest hi)

/-- Settles O59: the assembled commands are run by `run_expandDigest`, and each of their responses has its ACK bit set. -/
theorem engineComputesDigest : Obligations.EngineComputesDigest := by
  unfold Obligations.EngineComputesDigest
  intro m s rest hm hinputs
  rw [assembleLine, List.map_map] at hinputs
  obtain ⟨t, hrun, ht, hphase, herr, hlen, hresponses⟩ := run_expandDigest hm hinputs
  refine ⟨t, _, hrun, hphase, herr, hlen, ht, hresponses, by simp, fun r hr => ?_⟩
  simp only [List.cons_append, List.mem_cons, List.mem_append, List.mem_replicate, List.not_mem_nil, or_false] at hr
  rcases hr with rfl | ⟨-, rfl⟩ | rfl <;> decide

end Sys2Proof
